-- ==== Sys2Proof/Word.lean ====
section
/-! DEFINITION. The data types of the cryptg CORE: bytes, blocks, keys, initialization values, 64-bit integers
(spec/00_scope.md R10, R11, R12; section 4). A block is a sequence of 16 bytes and is never read as a number (R11). -/

namespace Sys2Proof

/-- A byte, an unsigned integer in 0 .. 255 (R10). -/
abbrev Byte := BitVec 8

/-- A block: 16 bytes, byte 0 first (R11; BLOCK_BYTES = 16). -/
abbrev Block := Vector Byte 16

/-- The key: exactly 32 bytes by type, not by a run-time check (R9, R21; KEY_BYTES = 32). -/
abbrev Key := Vector Byte 32

/-- The initialization value: exactly 32 bytes by type (R9, R22; IV_BYTES = 32). -/
abbrev Iv := Vector Byte 32

/-- A 64-bit unsigned integer (R12; PQ_BITS = 64). -/
abbrev U64 := BitVec 64

/-- The command word written to `CMD` (spec/30_encoding.md R70). -/
abbrev CommandWord := BitVec 8

end Sys2Proof
end

