-- ==== Sys2Proof/Syntax.lean ====
section
/-! DEFINITION. The command set of the CORE: exactly three commands, one constructor per row of
spec/opcode_table.json (spec/00_scope.md R2, spec/30_encoding.md R71). No command has an operand field (R72). -/

namespace Sys2Proof

/-- The three commands. Their operands are implied by the opcode (R72). -/
inductive Instr where
  /-- `ENCRYPT_IGE`, spec/40_ige.md R92. -/
  | encryptIge
  /-- `DECRYPT_IGE`, spec/40_ige.md R93. -/
  | decryptIge
  /-- `FACTORIZE_PQ_PAIR`, spec/41_factorization.md R121. -/
  | factorizePqPair
  deriving DecidableEq, Repr

end Sys2Proof
end

