-- ==== Sys2Proof/WellFormed.lean ====
section
/-! DEFINITION. Well-formedness. A command has no operand, so every term of `Instr` is well formed; what can be
ill formed is the word written to `CMD` (spec/30_encoding.md R70, R73): its reserved bits must be 0 and its
operation must be assigned. -/

namespace Sys2Proof

/-- Field `OP`, bits 1:0 of the command word (R70). -/
def CommandWord.op (w : CommandWord) : BitVec 2 := w.extractLsb' 0 2

/-- Field `RSV`, bits 7:2 of the command word (R70). -/
def CommandWord.rsv (w : CommandWord) : BitVec 6 := w.extractLsb' 2 6

/-- The two checks of R70 and R73: `RSV` is written as 0, and `OP` is not the unassigned `0b00`. -/
def CommandWord.wellFormed (w : CommandWord) : Bool := w.rsv == 0 && w.op != 0

/-- Every command is well formed: it has no field to check (R72). -/
def Instr.wellFormed (i : Instr) : Bool :=
  match i with
  | .encryptIge => true
  | .decryptIge => true
  | .factorizePqPair => true

end Sys2Proof
end

