-- ==== Sys2Proof/Decode.lean ====
section
/-! DEFINITION. Decoding and encoding of command words (spec/30_encoding.md R70 to R76). The decoder is total: every
8-bit word gives a command or a rejection with a name. -/

namespace Sys2Proof

/-- Why a word is no command (R73): the two kinds of reserved word. -/
inductive Reject where
  /-- A reserved bit, `RSV` = bits 7:2, is 1. -/
  | reservedBits
  /-- `RSV` is 0 and `OP` is `0b00`, to which no operation is assigned: the word `0x00`. -/
  | unassignedOp
  deriving DecidableEq, Repr

/-- The opcode map (R71). The whole word is tested: the reserved bits first, then `OP`. -/
def decode (w : CommandWord) : Except Reject Instr :=
  if w.rsv ≠ 0 then .error .reservedBits
  else if w.op = 1 then .ok .encryptIge
  else if w.op = 2 then .ok .decryptIge
  else if w.op = 3 then .ok .factorizePqPair
  else .error .unassignedOp

/-- The word of a command, from the column `word` of the table of R71. -/
def encode (i : Instr) : CommandWord :=
  match i with
  | .encryptIge => 0x01
  | .decryptIge => 0x02
  | .factorizePqPair => 0x03

/-- The command the decoder reads from the bits `w` of an opcode-table row of `nbits` bits. A command is exactly one
8-bit word (R76): bits above it make it no command. -/
def decodeTableWord (nbits w : Nat) : Option Instr :=
  if nbits ≤ 8 ∧ w < 256 then
    match decode (BitVec.ofNat 8 w) with
    | .ok i => some i
    | .error _ => none
  else none

end Sys2Proof
end

