-- ==== Sys2Proof/Config.lean ====
section
/-! DEFINITION. The parameters of the model (spec/00_scope.md section 4, spec/10_state.md R20: "Not state, but
parameters of the model"). A parameter the spec leaves OPEN is an uninterpreted constant: no proof can see its value,
so a statement about the machine holds for every value. -/

namespace Sys2Proof

/-- The parameters of one CORE. -/
structure Config where
  /-- `LENW`, the width in bits of `LEN` (decision D4). -/
  lenW : Nat
  /-- `BUF_BYTES`, the capacity of `IBUF` and of `OBUF` in bytes; `none` is unbounded (decision D4). -/
  bufBytes : Option Nat
  /-- The external cipher: for every key a permutation of blocks (spec/42_cipher_primitive.md R160, R161). -/
  cipher : Key → Equiv.Perm Block
  /-- `RHO_Y0`, the start value of the iteration (decision D13). -/
  rhoY0 : Nat
  /-- `RHO_C_LAST`, the last polynomial constant tried (decision D13). -/
  rhoCLast : Nat
  /-- `RHO_MAX_CYCLES`, the number of cycles per constant (decision D13). -/
  rhoMaxCycles : Nat
  /-- The value `LEN` holds after a write of a number it cannot hold, before reduction to `LENW` bits; the argument
  counts such writes (log 13). -/
  freeLen : Nat → Nat
  /-- The value `PQ` holds after a write of a number it cannot hold; the argument counts such writes (log 13). -/
  freePq : Nat → U64

/-- `BlockEncrypt(K, B)` (R160). -/
def Config.blockEncrypt (cfg : Config) (k : Key) (b : Block) : Block := cfg.cipher k b

/-- `BlockDecrypt(K, B)`, the inverse of `BlockEncrypt(K, .)` (R160, R161). -/
def Config.blockDecrypt (cfg : Config) (k : Key) (b : Block) : Block := (cfg.cipher k).symm b

/-- OPEN (decision D23). The cipher is a family of permutations of blocks and nothing else may be assumed of it
(R161, R163). Safe, log 4. -/
opaque Config.openCipher : Key → Equiv.Perm Block

/-- OPEN (decision D4). The bits of `LENW` beyond the five that the length of one block needs.
DESIGN CHOICE (`LENW` is at least 5), unsafe, log 3. -/
opaque Config.openExtraLenBits : Nat

/-- OPEN (decision D4). The blocks of `BUF_BYTES` beyond the first, or unbounded.
DESIGN CHOICE (`BUF_BYTES` holds at least one block), unsafe, log 3. -/
opaque Config.openExtraBlocks : Option Nat

/-- FREE VALUE. The spec does not state what `LEN` holds after a write of a number wider than `LENW` bits
(spec/10_state.md R23). DESIGN CHOICE, log 13. -/
opaque Config.openFreeLen : Nat → Nat

/-- FREE VALUE. The spec does not state what `PQ` holds after a write of a number wider than 64 bits
(spec/10_state.md R25, spec/30_encoding.md R78). DESIGN CHOICE, log 13. -/
opaque Config.openFreePq : Nat → U64

/-- `LENW` of the machine. -/
def Config.machineLenW : Nat := Config.openExtraLenBits + 5

/-- `BUF_BYTES` of the machine: unbounded, or a multiple of 16 that is at most `2^LENW - 1` rounded down to a
multiple of 16 (spec/00_scope.md section 4). -/
def Config.machineBufBytes : Option Nat :=
  Config.openExtraBlocks.map fun b => 16 * min (b + 1) ((2 ^ Config.machineLenW - 1) / 16)

/-- The parameters of the machine: the open ones uninterpreted, the search schedule at the values of decision D13. -/
def Config.machine : Config where
  lenW := Config.machineLenW
  bufBytes := Config.machineBufBytes
  cipher := Config.openCipher
  rhoY0 := 2
  rhoCLast := 8
  rhoMaxCycles := 20
  freeLen := Config.openFreeLen
  freePq := Config.openFreePq

end Sys2Proof
end

