-- ==== Sys2Proof/Machine/State.lean ====
section
/-! DEFINITION. The state of the machine as plain data (spec/10_state.md, spec/20_memory.md R50), the reasons a step
can stop, and the state after reset (R37, spec/70_reset_and_hazards.md R200). -/

namespace Sys2Proof.Machine

/-- A buffer space: the bytes that something has written, addresses strictly rising. An unlisted address holds no
value (R35, R37, R50). -/
abbrev Memory := List Host.Cell

/-- A register of R21 to R26. `written` says whether anything has written it since reset: while it is false the spec
says that the register holds no value (R35). It holds the reset value of log 1 all the same, and a command or a read
that needs it runs on that value (log 2). No step depends on the bit: it is the record of R35 for statements. -/
structure Reg (α : Type) where
  value : α
  written : Bool
  deriving DecidableEq, Repr

/-- The two units (R20). -/
inductive UnitId where
  | ige
  | fact
  deriving DecidableEq, Repr

/-- The agents that take steps (R20). The external cipher takes none (spec/42_cipher_primitive.md R162). -/
inductive Agent where
  | host
  | igeUnit
  | factUnit
  deriving DecidableEq, Repr

/-- The three error kinds, a closed set (spec/60_exceptions.md R170). -/
inductive ErrorKind where
  | malformedInput
  | invalidInput
  | factorizationFailed
  deriving DecidableEq, Repr

/-- The two commands of the IGE unit (spec/40_ige.md R92, R93). -/
inductive IgeCommand where
  | encrypt
  | decrypt
  deriving DecidableEq, Repr

/-- Where a factorization in progress stands (spec/41_factorization.md R121, R140). -/
inductive FactPhase where
  /-- `PQ < 2` or `PQ` even: no search, the next step ends the command (R122, R123). -/
  | direct
  /-- Inside a batch, or before its gcd (R128). -/
  | batch
  /-- Replaying a batch whose gcd was `N` (R129). -/
  | replay
  /-- `G` is a nontrivial divisor: the next step writes the result (R130 (a), R132). -/
  | found
  /-- All constants have failed: the next step raises `FactorizationFailed` (R131). -/
  | exhausted
  deriving DecidableEq, Repr

/-- The working registers of the FACT unit (R32), natural numbers. -/
structure Search where
  n : Nat
  c : Nat
  k : Nat
  j : Nat
  x : Nat
  y : Nat
  ys : Nat
  prod : Nat
  g : Nat
  deriving DecidableEq, Repr

/-- The two buffer spaces (R50). -/
inductive Space where
  | ibuf
  | obuf
  deriving DecidableEq, Repr

/-- The operands and results that can hold no value (R35). -/
inductive Place where
  | key
  | iv
  | len
  | pq
  | p
  | q
  | ibuf
  | obuf
  deriving DecidableEq, Repr

/-- The registers a host can name in a read (R34, spec/30_encoding.md R78). -/
inductive RegName where
  | key
  | iv
  | len
  | pq
  | p
  | q
  | igeStatus
  | factStatus
  | cmd
  deriving DecidableEq, Repr

/-- What the host can address and never write: such a write has no effect (R28, R29, R34). -/
inductive ReadOnly where
  | p
  | q
  | igeStatus
  | factStatus
  | obuf (addr : Nat)
  deriving DecidableEq, Repr

/-- What a host read returns. -/
inductive HostDatum where
  | sequence (v : Vector Byte 32)
  | length (n : Nat)
  | integer (v : U64)
  | status (v : BitVec 8)
  | buffer (bs : List Byte)
  deriving DecidableEq, Repr

/-- One line of a host script (spec/30_encoding.md R78, R79; R34), or the reset event of the platform
(spec/70_reset_and_hazards.md R200). -/
inductive HostAction where
  /-- `WR KEY, v` -/
  | wrKey (v : Key)
  /-- `WR IV, v` -/
  | wrIv (v : Iv)
  /-- `WR LEN, n` -/
  | wrLen (n : Nat)
  /-- `WR PQ, n`; a number wider than 64 bits leaves a free value (log 13). -/
  | wrPq (n : Nat)
  /-- `WRBUF addr, bytes` -/
  | wrIbuf (addr : Nat) (bytes : List Byte)
  /-- A write of a word to `CMD` (R27). -/
  | wrCmd (w : CommandWord)
  /-- A write to a place the host never writes (R34). -/
  | wrReadOnly (r : ReadOnly)
  /-- `RD reg`, and the read-back of an operand register (R34). -/
  | rd (r : RegName)
  /-- `RDBUF addr, n` -/
  | rdObuf (addr n : Nat)
  /-- The read-back of `n` bytes of `IBUF` (R34). -/
  | rdIbuf (addr n : Nat)
  /-- `WAIT IGE`, `WAIT FACT` (R79). -/
  | wait (u : UnitId)
  /-- The platform resets the CORE (R200). -/
  | reset
  deriving DecidableEq, Repr

/-- Why a step stops with a fault. -/
inductive Fault where
  /-- The host accesses a buffer address at or beyond `BUF_BYTES`: there is no such byte (R50). Raised by the host
  actions on `IBUF` and `OBUF`. Safe (log 12). -/
  | noSuchAddress (space : Space) (addr : Nat)
  deriving DecidableEq, Repr

/-- Why a step has no meaning. Each but `notModelled` is a breach of a host duty to which the spec gives no effect
(spec/93_implementation_defined.md part 2). -/
inductive Refusal where
  /-- An arm of the dispatch without a meaning. Raised by no arm: every command has its meaning. Safe. -/
  | notModelled (mnemonic : String)
  /-- X1: a reserved command word is written to `CMD` (spec/30_encoding.md R74). Raised by the host's write. Safe. -/
  | reservedCommand (w : CommandWord)
  /-- X2: a command is written while its unit has `BUSY` = 1 (R204). Raised by the three commands. Safe. -/
  | unitBusy (u : UnitId)
  /-- X3: an operand of a busy unit is written (R203). Raised by the host's write. Safe. -/
  | operandOfBusyUnit (place : Place)
  /-- X4: a result is read that belongs to no completed, successful command whose completion the host has read
  (R205). Raised by the host's read. Safe. -/
  | notAResult (place : Place)
  /-- X4, X5, and R35: a byte of `IBUF` or of `OBUF` that holds no value is needed. Raised by the two IGE commands, by
  host reads of buffers, and by a block step in a state that no run reaches. Safe. -/
  | noValue (place : Place)
  /-- X6: `LEN` is a multiple of 16 and exceeds `BUF_BYTES` (R208). Raised by the IGE commands. Safe. -/
  | lenExceedsBuffer
  /-- X7: the host reads `CMD` (R27). Raised by the host's read. Safe. -/
  | cmdIsWriteOnly
  deriving DecidableEq, Repr

/-- The state. Fields up to `search` are the CORE's; the last six are the model's own: the record of the outside, and
the count of free values. -/
structure State where
  /-- `KEY` (R21). -/
  key : Reg Key
  /-- `IV` (R22). -/
  iv : Reg Iv
  /-- `LEN` (R23), below `2^LENW`. -/
  len : Reg Nat
  /-- `PQ` (R25). -/
  pq : Reg U64
  /-- `P` (R26). -/
  p : Reg U64
  /-- `Q` (R26). -/
  q : Reg U64
  /-- `IGE_STATUS` (R28). -/
  igeStatus : BitVec 8
  /-- `FACT_STATUS` (R29). -/
  factStatus : BitVec 8
  /-- `IBUF` (R50). -/
  ibuf : Memory
  /-- `OBUF` (R50). -/
  obuf : Memory
  /-- The IGE command in progress, `none` when the unit is idle (spec/40_ige.md R94, R95). -/
  igeOp : Option IgeCommand
  /-- `PREV_CIPHER` (R30). -/
  prevCipher : Block
  /-- `PREV_PLAIN` (R30). -/
  prevPlain : Block
  /-- `BLK` (R31). -/
  blk : Nat
  /-- The phase of the factorization in progress, `none` when the unit is idle (R140). -/
  factOp : Option FactPhase
  /-- `N`, `C`, `K`, `J`, `X`, `Y`, `YS`, `PROD`, `G` (R32). -/
  search : Search
  /-- The host has read `IGE_STATUS` with `DONE` = 1 and `ERR` = 0 since the last IGE command (R205, log 10). -/
  igeSeen : Bool
  /-- The host has read `FACT_STATUS` with `DONE` = 1 and `ERR` = 0 since the last factorization (R205, log 10). -/
  factSeen : Bool
  /-- What the last host read returned (log 10). -/
  readData : Option HostDatum
  /-- The host actions still to come, in order (spec/30_encoding.md R78, log 9). -/
  script : List HostAction
  /-- Which agents move next (spec/20_memory.md R62, spec/70_reset_and_hazards.md R212, log 8). -/
  turns : List Agent
  /-- How many free values have been drawn (log 13). -/
  draws : Nat
  deriving DecidableEq, Repr

/-- A register that nothing has written since reset. Its value is the model's: DESIGN CHOICE, unsafe, log 1. -/
def Reg.unwritten {α : Type} (v : α) : Reg α := ⟨v, false⟩

/-- The working registers of the FACT unit after reset: "no value; irrelevant" (R37). DESIGN CHOICE 0, log 1. -/
def Search.reset : Search := ⟨0, 0, 0, 0, 0, 0, 0, 0, 0⟩

/-- The state after reset (R37, R200): both status registers `0x00`, every buffer byte without a value, both
units idle, and every other register, for which the spec gives no value, at the value of log 1 with nothing written. -/
def State.reset : State where
  key := Reg.unwritten (Vector.replicate 32 0)
  iv := Reg.unwritten (Vector.replicate 32 0)
  len := Reg.unwritten 0
  pq := Reg.unwritten 0
  p := Reg.unwritten 0
  q := Reg.unwritten 0
  igeStatus := 0x00
  factStatus := 0x00
  ibuf := []
  obuf := []
  igeOp := none
  prevCipher := Vector.replicate 16 0
  prevPlain := Vector.replicate 16 0
  blk := 0
  factOp := none
  search := Search.reset
  igeSeen := false
  factSeen := false
  readData := none
  script := []
  turns := []
  draws := 0

end Sys2Proof.Machine
end

