-- ==== Sys2Proof/Machine/Flags.lean ====
section
/-! DEFINITION. The two status registers: fields, words and error codes (spec/10_state.md R28, R29,
spec/60_exceptions.md R171). The CORE has no other flag. -/

namespace Sys2Proof.Machine

/-- Field `BUSY`, bit 0 (R28, R29). -/
def statusBusy (w : BitVec 8) : Bool := w.getLsbD 0

/-- Field `DONE`, bit 1. -/
def statusDone (w : BitVec 8) : Bool := w.getLsbD 1

/-- Field `ERR`, bits 3:2. -/
def statusErr (w : BitVec 8) : BitVec 2 := w.extractLsb' 2 2

/-- The word with the given fields; bits 7:4 read as 0. -/
def statusWord (busy done : Bool) (err : BitVec 2) : BitVec 8 :=
  (0#4 ++ err) ++ (BitVec.ofBool done ++ BitVec.ofBool busy)

/-- The code of an error kind in the field `ERR` (R171). -/
def errorCode (e : ErrorKind) : BitVec 2 :=
  match e with
  | .malformedInput => 1
  | .invalidInput => 2
  | .factorizationFailed => 3

/-- (`BUSY`, `DONE`, `ERR`) = (1, 0, 0): a command has been accepted (spec/30_encoding.md R77). -/
def statusAccepted : BitVec 8 := statusWord true false 0

/-- (0, 1, 0): completed with success (R176). -/
def statusSuccess : BitVec 8 := statusWord false true 0

/-- (0, 1, code): completed with an error (R174). -/
def statusFailed (e : ErrorKind) : BitVec 8 := statusWord false true (errorCode e)

/-- A status word that tells of a completed, successful command: `DONE` = 1 and `ERR` = 0 (R205). -/
def statusIsSuccess (w : BitVec 8) : Bool := statusDone w && statusErr w == 0

/-- The status register of a unit (spec/60_exceptions.md R171). -/
def statusOf (u : UnitId) (s : State) : BitVec 8 :=
  match u with
  | .ige => s.igeStatus
  | .fact => s.factStatus

/-- The legal values of `IGE_STATUS` (R28). -/
def igeStatusLegal (w : BitVec 8) : Bool :=
  w == 0 || w == statusAccepted || w == statusSuccess || w == statusFailed .malformedInput

/-- The legal values of `FACT_STATUS` (R29). -/
def factStatusLegal (w : BitVec 8) : Bool :=
  w == 0 || w == statusAccepted || w == statusSuccess || w == statusFailed .invalidInput
    || w == statusFailed .factorizationFailed

end Sys2Proof.Machine
end

