-- ==== Sys2Proof/Machine/Ops.lean ====
section
/-! DEFINITION. The named operations over buffers, blocks and registers, and the three events of a command every
unit shares: acceptance (spec/30_encoding.md R77), raising an error (spec/60_exceptions.md R174) and completion with
success (R176). -/

namespace Sys2Proof.Machine

/-! Buffers (spec/20_memory.md R50, R60). -/

/-- The byte at an address; `none` when nothing has written it since reset (R35). -/
def Memory.read : Memory → Nat → Option Byte
  | [], _ => none
  | (a, b) :: m, x => if x = a then some b else Memory.read m x

/-- A byte written at an address; addresses stay strictly rising. -/
def Memory.write : Memory → Nat → Byte → Memory
  | [], x, v => [(x, v)]
  | (a, b) :: m, x, v =>
    if x < a then (x, v) :: (a, b) :: m
    else if x = a then (x, v) :: m
    else (a, b) :: Memory.write m x v

/-- The canonical form: addresses strictly rising. An unlisted address holds no value, so no entry equals it. -/
def Memory.wf : Memory → Bool
  | [] => true
  | [_] => true
  | (a, _) :: (a', b') :: m => decide (a < a') && Memory.wf ((a', b') :: m)

/-- Every listed address exists in a buffer of the given capacity (R50); `none` is unbounded. -/
def Memory.below (capacity : Option Nat) (m : Memory) : Bool :=
  match capacity with
  | none => true
  | some c => m.all fun cell => decide (cell.1 < c)

/-- All of the `n` bytes from address `a` upward hold a value. -/
def Memory.hasBytes (m : Memory) (a n : Nat) : Bool := (List.range n).all fun j => (m.read (a + j)).isSome

/-- The byte at an address where there is one. Callers have checked with `hasBytes` that there is. -/
def Memory.byteAt (m : Memory) (a : Nat) : Byte := (m.read a).getD 0

/-- `MemRead(space, a, n)` (spec/00_scope.md R14), `none` when one of the bytes holds no value. -/
def Memory.readBytes (m : Memory) (a n : Nat) : Option (List Byte) :=
  if m.hasBytes a n then some ((List.range n).map fun j => m.byteAt (a + j)) else none

/-- `MemRead(space, a, 16)`: byte `a` is byte 0 of the block (R14, R54). -/
def Memory.readBlock (m : Memory) (a : Nat) : Option Block :=
  if m.hasBytes a 16 then some (Vector.ofFn fun j => m.byteAt (a + j)) else none

/-- `MemWrite(space, a, n, bytes)` (R14). -/
def Memory.writeBytes : Memory → Nat → List Byte → Memory
  | m, _, [] => m
  | m, a, b :: bs => Memory.writeBytes (m.write a b) (a + 1) bs

/-- `MemWrite(space, a, 16, block)`: byte 0 of the block goes to `a` (R14, R54). -/
def Memory.writeBlock (m : Memory) (a : Nat) (b : Block) : Memory := m.writeBytes a b.toList

/-! Blocks. -/

/-- `A xor B`, byte by byte; the lanes do not interact (spec/00_scope.md R11). -/
def blockXor (a b : Block) : Block := Vector.ofFn fun j => a[j] ^^^ b[j]

/-! Registers. -/

/-- The register after a write. -/
def Reg.wrote {α : Type} (v : α) : Reg α := ⟨v, true⟩

/-- The value the spec says the register holds: none while nothing has written it since reset (R35). Statements use
it; the machine reads `value` (log 2). -/
def Reg.read {α : Type} (r : Reg α) : Option α := if r.written then some r.value else none

/-! The events of a command. -/

/-- The part of acceptance that both units share (R77): the unit's status becomes `BUSY` = 1, `DONE` = 0, `ERR` = 0,
and a result of an earlier command is no longer the host's to read (R205). -/
def accept (u : UnitId) (s : State) : State :=
  match u with
  | .ige => { s with igeStatus := statusAccepted, igeSeen := false }
  | .fact => { s with factStatus := statusAccepted, factSeen := false }

/-- `raise e` (R174), the one way an error is taken: the unit's status becomes `BUSY` = 0, `DONE` = 1, `ERR` = code
and the operation ends. Nothing else is written, nothing is saved, control goes nowhere. -/
def raise (u : UnitId) (e : ErrorKind) (s : State) : State :=
  match u with
  | .ige => { s with igeStatus := statusFailed e, igeOp := none }
  | .fact => { s with factStatus := statusFailed e, factOp := none }

/-- `return` (R176): the unit's status becomes `BUSY` = 0, `DONE` = 1, `ERR` = 0 and the operation ends. There is no
return from an error, because nothing was entered (R180). -/
def complete (u : UnitId) (s : State) : State :=
  match u with
  | .ige => { s with igeStatus := statusSuccess, igeOp := none }
  | .fact => { s with factStatus := statusSuccess, factOp := none }

/-- `return (P <- p, Q <- q)`: both results are written in the completion step (R26, R176). -/
def completeWithPair (p q : Nat) (s : State) : State :=
  { complete .fact s with p := Reg.wrote (BitVec.ofNat 64 p), q := Reg.wrote (BitVec.ofNat 64 q) }

/-- The reset event (spec/70_reset_and_hazards.md R200, R201): the CORE is as `State.reset` has it, whatever was in
progress. What stands outside the CORE goes on: the rest of the script, the turns, the host's last datum (log 15),
and the count of free values, so that none is drawn twice (log 13). -/
def resetEvent (s : State) : State :=
  { State.reset with script := s.script, turns := s.turns, readData := s.readData, draws := s.draws }

end Sys2Proof.Machine
end

