-- ==== Sys2Proof/Machine/Operands.lean ====
section
/-! DEFINITION. The operands of the commands: all are implied by the opcode (spec/30_encoding.md R72), and a command
reads what spec/10_state.md R24 lists and nothing else. -/

namespace Sys2Proof.Machine

/-- `iv1 = IV[0 .. 15]` (spec/40_ige.md R90, spec/20_memory.md R55). -/
def ivFirst (iv : Iv) : Block := Vector.ofFn fun (j : Fin 16) => iv[j.val]

/-- `iv2 = IV[16 .. 31]` (R90, R55). -/
def ivLast (iv : Iv) : Block := Vector.ofFn fun (j : Fin 16) => iv[16 + j.val]

/-- The alignment condition of spec/20_memory.md R57 and spec/40_ige.md R91. Length 0 meets it (R99). -/
def aligned (len : Nat) : Bool := len % 16 == 0

/-- `LEN / 16`, the number of blocks of an operation. -/
def blockCount (len : Nat) : Nat := len / 16

/-- `LEN <= BUF_BYTES` (spec/70_reset_and_hazards.md R208). Length 0 fits every buffer. -/
def fitsBuffer (cfg : Config) (len : Nat) : Bool :=
  match len with
  | 0 => true
  | n + 1 =>
    match cfg.bufBytes with
    | none => true
    | some b => decide (n + 1 ≤ b)

/-- The `n` addresses from `a` upward exist in a buffer (spec/20_memory.md R50). -/
def addressesExist (cfg : Config) (a n : Nat) : Bool := n == 0 || fitsBuffer cfg (a + n)

/-- Block `i` of the input, `IBUF[16*i .. 16*i+15]` (R54). -/
def inputBlock (s : State) (i : Nat) : Option Block := s.ibuf.readBlock (16 * i)

/-- The `nblk` input blocks of an IGE operation in order; a block without a value is left out. -/
def inputBlocks (s : State) (nblk : Nat) : List Block := (List.range nblk).filterMap (inputBlock s)

/-- The `nblk` output blocks `OBUF[16*i .. 16*i+15]` in order; a block without a value is left out. -/
def outputBlocks (s : State) (nblk : Nat) : List Block :=
  (List.range nblk).filterMap fun i => s.obuf.readBlock (16 * i)

/-- What an IGE command needs before it can be accepted (R77, R204, R207, R208): the unit is not busy, and, when `LEN`
is a multiple of 16, it fits the buffer and `IBUF[0 .. LEN-1]` hold values. The registers always hold a value
(log 2). -/
def igeReady (cfg : Config) (s : State) : Bool :=
  !statusBusy s.igeStatus &&
    (!aligned s.len.value || (fitsBuffer cfg s.len.value && s.ibuf.hasBytes 0 s.len.value))

/-- What `FACTORIZE_PQ_PAIR` needs before it can be accepted (R77, R204). `PQ` holds a value always (log 2). -/
def factReady (s : State) : Bool := !statusBusy s.factStatus

end Sys2Proof.Machine
end

