-- ==== Sys2Proof/Machine/Factor.lean ====
section
/-! DEFINITION. The FACT unit: the meaning of `FACTORIZE_PQ_PAIR` (spec/41_factorization.md R120 to R132) as
acceptance and the small steps of R140, and the same command read as a whole (the pseudocode of R121). All arithmetic
is on natural numbers and exact (R125); `gcd` is `Nat.gcd`, Euclid's rule (R124). -/

namespace Sys2Proof.Machine

/-! Arithmetic. -/

/-- `absdiff(a, b)` (spec/00_scope.md R12, R126). -/
def absdiff (a b : Nat) : Nat := if b ≤ a then a - b else b - a

/-- The iteration function `f(y) = (y*y + C) mod N` (R125). -/
def rhoNext (n c y : Nat) : Nat := (y * y + c) % n

/-- `PROD` with one more difference (R121, R126). -/
def prodNext (n x y prod : Nat) : Nat := (prod * absdiff x y) % n

/-! The small steps (R140) over the working registers (R32). -/

/-- The start of cycle `k`: anchor and saved value become the current `Y`, `PROD` becomes 1 (R128). -/
def startCycle (k : Nat) (r : Search) : Search := { r with k := k, j := 0, x := r.y, ys := r.y, prod := 1 }

/-- The start of constant `c`: `Y` becomes `RHO_Y0`, and cycle 0 starts (R127). -/
def startConstant (cfg : Config) (c : Nat) (r : Search) : Search := startCycle 0 { r with c := c, y := cfg.rhoY0 }

/-- The start of the search for `n` (R121). `G` is set to 1 so that it is in `1 .. N` from the start (R32);
DESIGN CHOICE, log 7. -/
def startSearch (cfg : Config) (n : Nat) (r : Search) : Search := startConstant cfg 1 { r with n := n, g := 1 }

/-- The current constant has failed: the next one, or exhaustion (R127, R131). The next one is set up in the step that
ends the last cycle of this one. DESIGN CHOICE, log 27. -/
def nextConstant (cfg : Config) (r : Search) : FactPhase × Search :=
  if r.c < cfg.rhoCLast then (.batch, startConstant cfg (r.c + 1) r) else (.exhausted, r)

/-- The outcome of a cycle by the value of `G` (R130), part of the batch gcd or the last replay step, which also sets up
the cycle or constant that comes next: R140 gives no step of its own for that. DESIGN CHOICE, log 27. -/
def endCycle (cfg : Config) (r : Search) : FactPhase × Search :=
  if 1 < r.g ∧ r.g < r.n then (.found, r)
  else if r.g = r.n then nextConstant cfg r
  else if r.k + 1 < cfg.rhoMaxCycles then (.batch, startCycle (r.k + 1) r)
  else nextConstant cfg r

/-- One application of `f` with its multiplication into `PROD` (R128, R140). -/
def iterate (r : Search) : Search :=
  let y := rhoNext r.n r.c r.y
  { r with y := y, prod := prodNext r.n r.x y r.prod, j := r.j + 1 }

/-- The batch gcd (R128, R140): `G = N` starts the replay (R129), any other value ends the cycle. That the same step
sets `J` for the replay is a DESIGN CHOICE, log 27. -/
def batchGcd (cfg : Config) (r : Search) : FactPhase × Search :=
  let r := { r with g := Nat.gcd r.prod r.n }
  if r.g = r.n then (.replay, { r with j := 0 }) else endCycle cfg r

/-- One step inside a batch of `2^K` iterations, or its gcd when all are done. -/
def batchStep (cfg : Config) (r : Search) : FactPhase × Search :=
  if r.j < 2 ^ r.k then (.batch, iterate r) else batchGcd cfg r

/-- One replay step (R129, R140): it stops at the first `G > 1`, or after the `2^K` steps of the batch. -/
def replayStep (cfg : Config) (r : Search) : FactPhase × Search :=
  let ys := rhoNext r.n r.c r.ys
  let r := { r with ys := ys, g := Nat.gcd (absdiff r.x ys) r.n, j := r.j + 1 }
  if r.g ≤ 1 ∧ r.j < 2 ^ r.k then (.replay, r) else endCycle cfg r

/-- The start of an accepted factorization: the tests of R122 and R123 decide whether there is a search (R121).
DEDUCED, log 6. -/
def startFact (cfg : Config) (s : State) : State :=
  let s := accept .fact s
  let n := s.pq.value.toNat
  if n < 2 ∨ n % 2 = 0 then { s with factOp := some .direct }
  else { s with factOp := some .batch, search := startSearch cfg n s.search }

/-- A write of `FACTORIZE_PQ_PAIR` to `CMD` (spec/30_encoding.md R77): refused when the host breaks R204, accepted
otherwise. A `PQ` that nothing has written has its reset value (log 2). -/
def acceptFact (cfg : Config) (s : State) : Host.Outcome State Fault Refusal :=
  if statusBusy s.factStatus then .refused (.unitBusy .fact)
  else .next (startFact cfg s)

/-- The meaning of `FACTORIZE_PQ_PAIR` as the host issues it: acceptance (R77), which starts the operation of R121.
The unit carries the operation out in its own steps (`factUnitStep`, R140). -/
def execFactorizePqPair (s : State) : Host.Outcome State Fault Refusal := acceptFact Config.machine s

/-- The step of a command without a search: `InvalidInput` below 2 (R122), the pair `(2, PQ/2)` for an even value
(R123). -/
def directStep (s : State) : State :=
  if s.pq.value.toNat < 2 then raise .fact .invalidInput s
  else completeWithPair 2 (s.pq.value.toNat / 2) s

/-- The completion of a successful search: `P = min(d, N/d)`, `Q = max(d, N/d)` with `d = G` (R132). -/
def foundStep (s : State) : State :=
  let d := s.search.g
  let e := s.search.n / d
  completeWithPair (min d e) (max d e) s

/-- One step of the FACT unit (R140). An idle unit has no step and the state stays (log 14). -/
def factUnitStep (cfg : Config) (s : State) : State :=
  match s.factOp with
  | none => s
  | some .direct => directStep s
  | some .batch => { s with factOp := some (batchStep cfg s.search).1, search := (batchStep cfg s.search).2 }
  | some .replay => { s with factOp := some (replayStep cfg s.search).1, search := (replayStep cfg s.search).2 }
  | some .found => foundStep s
  | some .exhausted => raise .fact .factorizationFailed s

/-! The command read as a whole (R121, R140). -/

/-- What a factorization ends with. -/
inductive FactOutcome where
  | pair (p q : Nat)
  | error (e : ErrorKind)
  deriving DecidableEq, Repr

/-- The loop `for J = 1 .. r` of a batch: the final `Y` and `PROD`. -/
def wholeBatch (n c x : Nat) : Nat → Nat → Nat → Nat × Nat
  | 0, y, prod => (y, prod)
  | r + 1, y, prod =>
    let y' := rhoNext n c y
    wholeBatch n c x r y' (prodNext n x y' prod)

/-- The replay loop: the first `G > 1`, or the last `G` when there is none; `g` is the value before the loop. -/
def wholeReplay (n c x : Nat) : Nat → Nat → Nat → Nat
  | 0, _, g => g
  | r + 1, ys, _ =>
    let ys' := rhoNext n c ys
    let g' := Nat.gcd (absdiff x ys') n
    if 1 < g' then g' else wholeReplay n c x r ys' g'

/-- The loop `for K` of one constant, `fuel` cycles from cycle `k` with running value `y`: the divisor it finds. -/
def wholeConstant (n c : Nat) : Nat → Nat → Nat → Option Nat
  | 0, _, _ => none
  | fuel + 1, k, y =>
    let batch := wholeBatch n c y (2 ^ k) y 1
    let g := Nat.gcd batch.2 n
    let g' := if g = n then wholeReplay n c y (2 ^ k) y g else g
    if 1 < g' ∧ g' < n then some g'
    else if g' = n then none
    else wholeConstant n c fuel (k + 1) batch.1

/-- The loop `for C`, `fuel` constants from constant `c`. -/
def wholeSearch (n y0 maxCycles : Nat) : Nat → Nat → Option Nat
  | 0, _ => none
  | fuel + 1, c =>
    match wholeConstant n c maxCycles 0 y0 with
    | some d => some d
    | none => wholeSearch n y0 maxCycles fuel (c + 1)

/-- The pseudocode of R121: what `FACTORIZE_PQ_PAIR` ends with on the operand `pq`, for the three parameters of the
schedule. -/
def wholeFactorize (y0 cLast maxCycles pq : Nat) : FactOutcome :=
  if pq < 2 then .error .invalidInput
  else if pq % 2 = 0 then .pair 2 (pq / 2)
  else
    match wholeSearch pq y0 maxCycles cLast 1 with
    | some d => .pair (min d (pq / d)) (max d (pq / d))
    | none => .error .factorizationFailed

/-- What the host finds in `FACT_STATUS`, `P` and `Q` after that outcome (R174, R176). -/
def applyOutcome (o : FactOutcome) (s : State) : State :=
  match o with
  | .pair p q => completeWithPair p q s
  | .error e => raise .fact e s

end Sys2Proof.Machine
end

