-- ==== Sys2Proof/Machine/Ige.lean ====
section
/-! DEFINITION. The IGE unit: the meanings of `ENCRYPT_IGE` and `DECRYPT_IGE` (spec/40_ige.md R90 to R95) as
acceptance, block steps and completion, and the same recurrences over a whole sequence of blocks (R92, R93). -/

namespace Sys2Proof.Machine

/-- One block of R92: `C = E(P xor PREV_PLAIN) xor PREV_CIPHER`. -/
def encryptBlock (e : Block → Block) (prevCipher prevPlain plain : Block) : Block :=
  blockXor (e (blockXor plain prevPlain)) prevCipher

/-- One block of R93: `P = D(C xor PREV_CIPHER) xor PREV_PLAIN`. -/
def decryptBlock (d : Block → Block) (prevCipher prevPlain cipher : Block) : Block :=
  blockXor (d (blockXor cipher prevCipher)) prevPlain

/-- The recurrence of R92 over all blocks, from `PREV_CIPHER` and `PREV_PLAIN`. -/
def encryptBlocks (e : Block → Block) : Block → Block → List Block → List Block
  | _, _, [] => []
  | prevCipher, prevPlain, plain :: rest =>
    let cipher := encryptBlock e prevCipher prevPlain plain
    cipher :: encryptBlocks e cipher plain rest

/-- The recurrence of R93 over all blocks, from `PREV_CIPHER` and `PREV_PLAIN`. -/
def decryptBlocks (d : Block → Block) : Block → Block → List Block → List Block
  | _, _, [] => []
  | prevCipher, prevPlain, cipher :: rest =>
    let plain := decryptBlock d prevCipher prevPlain cipher
    plain :: decryptBlocks d cipher plain rest

/-- The start of an accepted IGE operation. When `LEN` is a multiple of 16 the chaining values are set from `IV` and
`BLK` to 0 (R30, R31, R90); otherwise nothing but the status is written (R91). DEDUCED, log 6. -/
def startIge (c : IgeCommand) (s : State) : State :=
  let s := { accept .ige s with igeOp := some c }
  if aligned s.len.value then
    { s with prevCipher := ivFirst s.iv.value, prevPlain := ivLast s.iv.value, blk := 0 }
  else s

/-- A write of an IGE command to `CMD` (spec/30_encoding.md R77): refused when the host breaks R204, R208, or
R207 for a byte of `IBUF`, accepted otherwise. A register that nothing has written has its reset value (log 2). With a
misaligned `LEN` the command reads nothing else and is accepted (R91, R207, R208). -/
def acceptIge (cfg : Config) (c : IgeCommand) (s : State) : Host.Outcome State Fault Refusal :=
  if statusBusy s.igeStatus then .refused (.unitBusy .ige)
  else if !aligned s.len.value then .next (startIge c s)
  else if !fitsBuffer cfg s.len.value then .refused .lenExceedsBuffer
  else if !s.ibuf.hasBytes 0 s.len.value then .refused (.noValue .ibuf)
  else .next (startIge c s)

/-- The meaning of `ENCRYPT_IGE` as the host issues it: acceptance (R77), which starts the operation of R92. The
unit carries the operation out in its own steps (`igeUnitStep`, R94). -/
def execEncryptIge (s : State) : Host.Outcome State Fault Refusal := acceptIge Config.machine .encrypt s

/-- The meaning of `DECRYPT_IGE` as the host issues it: acceptance (R77), which starts the operation of R93. The
unit carries the operation out in its own steps (`igeUnitStep`, R95). -/
def execDecryptIge (s : State) : Host.Outcome State Fault Refusal := acceptIge Config.machine .decrypt s

/-- The end of a block step: the produced block goes to `OBUF[16*i .. 16*i+15]`, the chaining values and `BLK` move
on (R94, R95). -/
def emitBlock (out newCipher newPlain : Block) (s : State) : State :=
  { s with
    obuf := s.obuf.writeBlock (16 * s.blk) out
    prevCipher := newCipher
    prevPlain := newPlain
    blk := s.blk + 1 }

/-- One block step of `ENCRYPT_IGE` (R94) on the input block `plain`. -/
def encryptStep (cfg : Config) (plain : Block) (s : State) : State :=
  let cipher := encryptBlock (cfg.blockEncrypt s.key.value) s.prevCipher s.prevPlain plain
  emitBlock cipher cipher plain s

/-- One block step of `DECRYPT_IGE` (R95) on the input block `cipher`. -/
def decryptStep (cfg : Config) (cipher : Block) (s : State) : State :=
  let plain := decryptBlock (cfg.blockDecrypt s.key.value) s.prevCipher s.prevPlain cipher
  emitBlock plain cipher plain s

/-- The block step of the command in progress. -/
def blockStep (cfg : Config) (c : IgeCommand) (input : Block) (s : State) : State :=
  match c with
  | .encrypt => encryptStep cfg input s
  | .decrypt => decryptStep cfg input s

/-- One step of the IGE unit (R91, R94, R95). An idle unit has no step and the state stays (log 14). A busy unit
raises `MalformedInput` when `LEN` is misaligned, otherwise processes the next block, and after the last completes.
The refusal stands for an input byte without a value, which no run meets (log 19). -/
def igeUnitStep (cfg : Config) (s : State) : Host.Outcome State Fault Refusal :=
  match s.igeOp with
  | none => .next s
  | some c =>
    if !aligned s.len.value then .next (raise .ige .malformedInput s)
    else if s.blk < blockCount s.len.value then
      match inputBlock s s.blk with
      | some input => .next (blockStep cfg c input s)
      | none => .refused (.noValue .ibuf)
    else .next (complete .ige s)

end Sys2Proof.Machine
end

