-- ==== Sys2Proof/Machine/Dispatch.lean ====
section
/-! DEFINITION. The dispatch: one arm per command. -/

namespace Sys2Proof.Machine

def exec (i : Instr) (s : State) : Host.Outcome State Fault Refusal :=
  match i with
  | .encryptIge => Sys2Proof.Machine.execEncryptIge s
  | .decryptIge => Sys2Proof.Machine.execDecryptIge s
  | .factorizePqPair => Sys2Proof.Machine.execFactorizePqPair s

end Sys2Proof.Machine
end

