-- ==== Sys2Proof/Machine/HostPort.lean ====
section
/-! DEFINITION. What the host and the platform can do to the CORE (spec/10_state.md R34, spec/30_encoding.md R77 to
R79, spec/70_reset_and_hazards.md R200 to R208). A host action that breaks a duty has no effect in the spec and is
refused (spec/93_implementation_defined.md part 2). -/

namespace Sys2Proof.Machine

/-- A host write to an operand of unit `u` (R203): refused while the unit is busy. -/
def writeOperand (u : UnitId) (pl : Place) (s written : State) : Host.Outcome State Fault Refusal :=
  if statusBusy (statusOf u s) then .refused (.operandOfBusyUnit pl)
  else .next written

/-- `LEN` after a write of `n`, of which the register holds `LENW` bits (R23), and the count of free values after it.
The spec states no result for a number that needs more: then a free value of `LENW` bits. DESIGN CHOICE, log 13. -/
def lenWritten (cfg : Config) (n draws : Nat) : Nat × Nat :=
  if n < 2 ^ cfg.lenW then (n, draws) else (cfg.freeLen draws % 2 ^ cfg.lenW, draws + 1)

/-- `WR LEN, n` (R23, spec/30_encoding.md R78). -/
def writeLen (cfg : Config) (n : Nat) (s : State) : Host.Outcome State Fault Refusal :=
  writeOperand .ige .len s
    { s with len := Reg.wrote (lenWritten cfg n s.draws).1, draws := (lenWritten cfg n s.draws).2 }

/-- `PQ` after a write of `n`, of which the register holds 64 bits (R25), and the count of free values after it. The
spec states no result for a number that needs more: then a free value. DESIGN CHOICE, log 13. -/
def pqWritten (cfg : Config) (n draws : Nat) : U64 × Nat :=
  if n < 2 ^ 64 then (BitVec.ofNat 64 n, draws) else (cfg.freePq draws, draws + 1)

/-- `WR PQ, n` (R25, spec/30_encoding.md R78). -/
def writePq (cfg : Config) (n : Nat) (s : State) : Host.Outcome State Fault Refusal :=
  writeOperand .fact .pq s
    { s with pq := Reg.wrote (pqWritten cfg n s.draws).1, draws := (pqWritten cfg n s.draws).2 }

/-- `WRBUF a, bytes` (spec/20_memory.md R50, R203). A transfer of no bytes writes no operand and has no effect, also
while the unit is busy. DESIGN CHOICE, log 26. -/
def writeIbuf (cfg : Config) (a : Nat) (bytes : List Byte) (s : State) : Host.Outcome State Fault Refusal :=
  if bytes.isEmpty then .next s
  else if addressesExist cfg a bytes.length then
    writeOperand .ige .ibuf s { s with ibuf := s.ibuf.writeBytes a bytes }
  else .fault (.noSuchAddress .ibuf (a + bytes.length - 1))

/-- A write to a place the host never writes has no effect (R28, R29, R34). -/
def writeReadOnly (cfg : Config) (r : ReadOnly) (s : State) : Host.Outcome State Fault Refusal :=
  match r with
  | .obuf a => if addressesExist cfg a 1 then .next s else .fault (.noSuchAddress .obuf a)
  | .p => .next s
  | .q => .next s
  | .igeStatus => .next s
  | .factStatus => .next s

/-- A read that returns `d`. -/
def returnDatum (d : HostDatum) (s : State) : Host.Outcome State Fault Refusal := .next { s with readData := some d }

/-- A read of bytes of a buffer, refused when one of them holds no value (R35). -/
def returnBytes (pl : Place) (bs : Option (List Byte)) (s : State) : Host.Outcome State Fault Refusal :=
  match bs with
  | some bs => returnDatum (.buffer bs) s
  | none => .refused (.noValue pl)

/-- A read of the status register of a unit: always allowed, without effect on the CORE (R205). The model records
whether the host has now seen the success of the unit's last command. -/
def readStatus (u : UnitId) (s : State) : State :=
  match u with
  | .ige =>
    { s with readData := some (.status s.igeStatus), igeSeen := s.igeSeen || statusIsSuccess s.igeStatus }
  | .fact =>
    { s with readData := some (.status s.factStatus), factSeen := s.factSeen || statusIsSuccess s.factStatus }

/-- `RD reg` and the read-back of an operand register (R34), which returns its reset value while nothing has written it
(log 2). `P` and `Q` are read only as results (R205); `CMD` is not readable (R27). -/
def readRegister (r : RegName) (s : State) : Host.Outcome State Fault Refusal :=
  match r with
  | .key => returnDatum (.sequence s.key.value) s
  | .iv => returnDatum (.sequence s.iv.value) s
  | .len => returnDatum (.length s.len.value) s
  | .pq => returnDatum (.integer s.pq.value) s
  | .p => if s.factSeen then returnDatum (.integer s.p.value) s else .refused (.notAResult .p)
  | .q => if s.factSeen then returnDatum (.integer s.q.value) s else .refused (.notAResult .q)
  | .igeStatus => .next (readStatus .ige s)
  | .factStatus => .next (readStatus .fact s)
  | .cmd => .refused .cmdIsWriteOnly

/-- `RDBUF a, n`: bytes of `OBUF`, only as a result (R205). Bytes at or beyond `LEN` keep what they held (R59), and
only those that no command has written are refused (X4; log 11). A transfer of no bytes reads no result and returns
no bytes, at any time. DESIGN CHOICE, log 26. -/
def readObuf (cfg : Config) (a n : Nat) (s : State) : Host.Outcome State Fault Refusal :=
  if !addressesExist cfg a n then .fault (.noSuchAddress .obuf (a + n - 1))
  else if !s.igeSeen && n != 0 then .refused (.notAResult .obuf)
  else returnBytes .obuf (s.obuf.readBytes a n) s

/-- The read-back of bytes of `IBUF` (R34). -/
def readIbuf (cfg : Config) (a n : Nat) (s : State) : Host.Outcome State Fault Refusal :=
  if !addressesExist cfg a n then .fault (.noSuchAddress .ibuf (a + n - 1))
  else returnBytes .ibuf (s.ibuf.readBytes a n) s

/-- A write of a word to `CMD` (R27, R74, R77): the command it decodes to, or a refusal of a reserved word. -/
def writeCommand (w : CommandWord) (s : State) : Host.Outcome State Fault Refusal :=
  match decode w with
  | .ok i => exec i s
  | .error _ => .refused (.reservedCommand w)

/-- One read of `WAIT` (R79): the status register is read; the wait is over when the value read has `DONE` = 1, and
`again` is the script that repeats it otherwise. -/
def waitRead (u : UnitId) (again : List HostAction) (s : State) : State :=
  if statusDone (statusOf u s) then readStatus u s else { readStatus u s with script := again }

/-- One host action on the state whose script is what comes after it. -/
def hostAction (cfg : Config) (a : HostAction) (s : State) : Host.Outcome State Fault Refusal :=
  match a with
  | .wrKey v => writeOperand .ige .key s { s with key := Reg.wrote v }
  | .wrIv v => writeOperand .ige .iv s { s with iv := Reg.wrote v }
  | .wrLen n => writeLen cfg n s
  | .wrPq n => writePq cfg n s
  | .wrIbuf addr bytes => writeIbuf cfg addr bytes s
  | .wrCmd w => writeCommand w s
  | .wrReadOnly r => writeReadOnly cfg r s
  | .rd r => readRegister r s
  | .rdObuf addr n => readObuf cfg addr n s
  | .rdIbuf addr n => readIbuf cfg addr n s
  | .wait u => .next (waitRead u (.wait u :: s.script) s)
  | .reset => .next (resetEvent s)

/-- The host's step: the first action of the script. With no action to come the host does nothing (log 14). -/
def hostStep (cfg : Config) (s : State) : Host.Outcome State Fault Refusal :=
  match s.script with
  | [] => .next s
  | a :: rest => hostAction cfg a { s with script := rest }

/-- The agent that moves when `turns` gives no choice: a busy unit before the host, so that every accepted command
completes (weak fairness, R213). DESIGN CHOICE, log 8. -/
def fairAgent (s : State) : Agent :=
  if s.igeOp.isSome then .igeUnit else if s.factOp.isSome then .factUnit else .host

/-- One step of an agent. -/
def agentStep (cfg : Config) (a : Agent) (s : State) : Host.Outcome State Fault Refusal :=
  match a with
  | .host => hostStep cfg s
  | .igeUnit => igeUnitStep cfg s
  | .factUnit => .next (factUnitStep cfg s)

/-- The next agent by `turns`, and the state after its turn is taken from the list. -/
def takeTurn (s : State) : Agent × State :=
  match s.turns with
  | [] => (fairAgent s, s)
  | a :: ts => (a, { s with turns := ts })

/-- `k` steps of the IGE unit alone, stopping at the first stop. -/
def igeRun (cfg : Config) : Nat → State → Host.Outcome State Fault Refusal
  | 0, s => .next s
  | k + 1, s =>
    match igeUnitStep cfg s with
    | .next s' => igeRun cfg k s'
    | .fault r => .fault r
    | .refused r => .refused r

/-- `k` steps of the FACT unit alone. -/
def factRun (cfg : Config) : Nat → State → State
  | 0, s => s
  | k + 1, s => factRun cfg k (factUnitStep cfg s)

end Sys2Proof.Machine
end

