-- ==== Sys2Proof/Machine/Step.lean ====
section
/-! DEFINITION. One step of the whole machine, and the placing of a command before it. The CORE fetches no
instruction (spec/10_state.md R36): a command comes to run because the host writes its word to `CMD`. -/

namespace Sys2Proof.Machine

/-- One step: the agent whose turn it is moves (spec/20_memory.md R62, spec/70_reset_and_hazards.md R212). -/
def step (s : State) : Host.Outcome State Fault Refusal :=
  agentStep Config.machine (takeTurn s).1 (takeTurn s).2

/-- The state in which the host's very next action is to write the word `w` to `CMD`, with the turn given to the
host (log 9). -/
def State.withFetchWord (s : State) (_nbits w : Nat) : State :=
  { s with
    script := .wrCmd (BitVec.ofNat 8 w) :: s.script
    turns := .host :: s.turns }

end Sys2Proof.Machine
end

