-- ==== Sys2Proof/Safety.lean ====
section
/-! DEFINITION. The terms claims are stated in: the invariant of the machine, the host's duties, the counts of
spec/41_factorization.md R137, and the notions of spec/40_ige.md section 5 and 6 over sequences of blocks. -/

namespace Sys2Proof.Safety

open Sys2Proof.Machine

/-! The invariant. -/

/-- The ranges of the working registers of a search for `pq` (spec/10_state.md R32, spec/41_factorization.md R127,
R128): `N` is the odd input, at least 3; `X`, `Y`, `YS`, `PROD` are below `N`; `G` divides `N`. -/
structure SearchRanges (cfg : Config) (pq : Nat) (r : Search) : Prop where
  n_eq : r.n = pq
  n_odd : r.n % 2 = 1
  n_ge : 3 ≤ r.n
  c_pos : 1 ≤ r.c
  c_le : r.c ≤ cfg.rhoCLast
  k_lt : r.k < cfg.rhoMaxCycles
  x_lt : r.x < r.n
  y_lt : r.y < r.n
  ys_lt : r.ys < r.n
  prod_lt : r.prod < r.n
  g_dvd : r.g ∣ r.n

/-- What holds of a factorization in progress, by its phase. -/
def FactInv (cfg : Config) (pq : Nat) (ph : FactPhase) (r : Search) : Prop :=
  match ph with
  | .direct => pq < 2 ∨ pq % 2 = 0
  | .batch => SearchRanges cfg pq r ∧ r.j ≤ 2 ^ r.k
  | .replay => SearchRanges cfg pq r ∧ r.j < 2 ^ r.k
  | .found => SearchRanges cfg pq r ∧ 1 < r.g ∧ r.g < r.n
  | .exhausted => SearchRanges cfg pq r ∧ r.c = cfg.rhoCLast

/-- What holds of an IGE operation in progress: its input bytes hold values (R207), its length fits (R208), `BLK` is at
most `LEN/16` (R31), and the blocks before `BLK` have been written to `OBUF` (spec/40_ige.md R94, R95). -/
structure IgeInv (cfg : Config) (s : State) : Prop where
  fits : aligned s.len.value = true → fitsBuffer cfg s.len.value = true
  input : aligned s.len.value = true → s.ibuf.hasBytes 0 s.len.value = true
  blk_le : aligned s.len.value = true → s.blk ≤ blockCount s.len.value
  output : aligned s.len.value = true → s.obuf.hasBytes 0 (16 * s.blk) = true

/-- The invariant of the machine. -/
structure Inv (cfg : Config) (s : State) : Prop where
  ibuf_wf : s.ibuf.wf = true
  obuf_wf : s.obuf.wf = true
  ibuf_below : s.ibuf.below cfg.bufBytes = true
  obuf_below : s.obuf.below cfg.bufBytes = true
  len_width : s.len.value < 2 ^ cfg.lenW
  ige_legal : igeStatusLegal s.igeStatus = true
  fact_legal : factStatusLegal s.factStatus = true
  ige_busy : statusBusy s.igeStatus = s.igeOp.isSome
  fact_busy : statusBusy s.factStatus = s.factOp.isSome
  ige_seen : s.igeSeen = true → s.igeStatus = statusSuccess
  fact_seen : s.factSeen = true → s.factStatus = statusSuccess
  fact_result : s.factStatus = statusSuccess → s.p.written = true ∧ s.q.written = true
  ige_op : ∀ c, s.igeOp = some c → IgeInv cfg s
  fact_op : ∀ ph, s.factOp = some ph → FactInv cfg s.pq.value.toNat ph s.search

/-! The host's duties (spec/70_reset_and_hazards.md R203 to R208). -/

/-- The host's action breaks no duty in the state `s`, and names only what exists: buffer accesses
addresses below `BUF_BYTES`. That a transfer of no bytes is always permitted is the model's choice (log 26). -/
def permitted (cfg : Config) (a : HostAction) (s : State) : Bool :=
  match a with
  | .wrKey _ => !statusBusy s.igeStatus
  | .wrIv _ => !statusBusy s.igeStatus
  | .wrLen _ => !statusBusy s.igeStatus
  | .wrPq _ => !statusBusy s.factStatus
  | .wrIbuf addr bytes => bytes.isEmpty || (addressesExist cfg addr bytes.length && !statusBusy s.igeStatus)
  | .wrCmd w =>
    match decode w with
    | .ok .encryptIge => igeReady cfg s
    | .ok .decryptIge => igeReady cfg s
    | .ok .factorizePqPair => factReady s
    | .error _ => false
  | .wrReadOnly (.obuf addr) => addressesExist cfg addr 1
  | .wrReadOnly _ => true
  | .rd .key => true
  | .rd .iv => true
  | .rd .len => true
  | .rd .pq => true
  | .rd .p => s.factSeen
  | .rd .q => s.factSeen
  | .rd .igeStatus => true
  | .rd .factStatus => true
  | .rd .cmd => false
  | .rdObuf addr n => addressesExist cfg addr n && (s.igeSeen || n == 0) && s.obuf.hasBytes addr n
  | .rdIbuf addr n => addressesExist cfg addr n && s.ibuf.hasBytes addr n
  | .wait _ => true
  | .reset => true

/-- The registers that the command reads have been written since reset: the duty of R207 that the machine does not
enforce (log 2). With a misaligned `LEN` an IGE command reads `LEN` only (R91). -/
def operandsWritten (i : Instr) (s : State) : Bool :=
  match i with
  | .encryptIge => s.len.written && (!aligned s.len.value || (s.key.written && s.iv.written))
  | .decryptIge => s.len.written && (!aligned s.len.value || (s.key.written && s.iv.written))
  | .factorizePqPair => s.pq.written

/-- The state with other values in the operand registers that nothing has written since reset. -/
def withOtherResetValues (k : Key) (v : Iv) (n : Nat) (x : U64) (s : State) : State :=
  { s with
    key := if s.key.written then s.key else Reg.unwritten k
    iv := if s.iv.written then s.iv else Reg.unwritten v
    len := if s.len.written then s.len else Reg.unwritten n
    pq := if s.pq.written then s.pq else Reg.unwritten x }

/-! The counts of R137. -/

/-- The next step of the FACT unit is an application of `f`: in a batch that is not complete, or in a replay. -/
def appliesF (s : State) : Bool :=
  match s.factOp with
  | some .batch => decide (s.search.j < 2 ^ s.search.k)
  | some .replay => true
  | some .direct => false
  | some .found => false
  | some .exhausted => false
  | none => false

/-- The next step of the FACT unit is a batch gcd. -/
def takesBatchGcd (s : State) : Bool :=
  match s.factOp with
  | some .batch => decide (2 ^ s.search.k ≤ s.search.j)
  | some .replay => false
  | some .direct => false
  | some .found => false
  | some .exhausted => false
  | none => false

/-- How many of the first `k` steps of the FACT unit from `s` meet a condition on the state before the step. -/
def countSteps (cfg : Config) (cond : State → Bool) : Nat → State → Nat
  | 0, _ => 0
  | k + 1, s => (if cond s then 1 else 0) + countSteps cfg cond k (factUnitStep cfg s)

/-! Sequences of blocks (spec/40_ige.md sections 5 and 6). -/

/-- The block of sixteen zero bytes. -/
def zeroBlock : Block := Vector.replicate 16 0

/-- Block `j` of a sequence; statements use it for `j` below the length only. -/
def nth (l : List Block) (j : Nat) : Block := l.getD j zeroBlock

/-- Block `j - 1` of a sequence, where block `-1` is `first` (R101, R102). -/
def prevOf (first : Block) (l : List Block) (j : Nat) : Block :=
  match j with
  | 0 => first
  | k + 1 => nth l k

/-- `start xor t 0 xor t 1 xor ... xor t (n-1)`. -/
def xorUpTo (start : Block) (t : Nat → Block) : Nat → Block
  | 0 => start
  | n + 1 => blockXor (xorUpTo start t n) (t n)

/-- The difference of two sequences in block `j`. -/
def diff (a b : List Block) (j : Nat) : Block := blockXor (nth a j) (nth b j)

/-- The cipher is affine over exclusive-or (R105). -/
def Affine (d : Block → Block) : Prop :=
  ∀ a b, d (blockXor a b) = blockXor (blockXor (d a) (d b)) (d zeroBlock)

end Sys2Proof.Safety
end

