-- ==== Sys2Proof/Certificates/Slice0/Obligations.lean ====
section
/-! DEFINITION. The statements about the model. Each docstring names the rule of the spec it formalises. `M` stands
for `Config.machine`, whose open parameters (the cipher, `LENW`, `BUF_BYTES`) are uninterpreted, so every statement
holds whatever they are. -/

open Sys2Proof Sys2Proof.Machine Sys2Proof.Safety

/-! Encoding. -/

/-- R73: `0x01`, `0x02`, `0x03` decode to the three commands, and each of the other 253 words is rejected: `0x00` for
its operation, every word with `RSV` other than 0 for its reserved bits. -/
def Obligations.DefinedWordsAreExactlyThree : Prop :=
  decode 0x01 = .ok .encryptIge ∧ decode 0x02 = .ok .decryptIge ∧ decode 0x03 = .ok .factorizePqPair ∧
    decode 0x00 = .error .unassignedOp ∧
    ∀ w : CommandWord, w.rsv ≠ 0 → decode w = .error .reservedBits

/-- `30_encoding.md` R70, R71: decoding inverts encoding, and a word that decodes to a command is that command's. -/
def Obligations.DecodeAndEncodeAgree : Prop :=
  (∀ i : Instr, decode (encode i) = .ok i) ∧
    ∀ (w : CommandWord) (i : Instr), decode w = .ok i → w = encode i

/-! A step runs the command. -/

/-- When the host has the turn and its next action writes a word that decodes to `i`, the step is `exec i` on the
state with that action and that turn taken away; the host has the turn when `turns` says so, and when `turns` is empty
and both units are idle. A word placed by `withFetchWord` is run by the very next step (log 9). -/
def Obligations.StepRunsTheWrittenCommand : Prop :=
  (∀ (s : State) (w : CommandWord) (i : Instr) (rest : List HostAction) (ts : List Agent),
      s.turns = .host :: ts → s.script = .wrCmd w :: rest → decode w = .ok i →
      step s = exec i { s with script := rest, turns := ts }) ∧
    (∀ (s : State) (w : CommandWord) (i : Instr) (rest : List HostAction),
      s.turns = [] → s.igeOp = none → s.factOp = none → s.script = .wrCmd w :: rest → decode w = .ok i →
      step s = exec i { s with script := rest }) ∧
    ∀ (s : State) (i : Instr), step (s.withFetchWord 8 (encode i).toNat) = exec i s

/-- R74: a write of a reserved word is refused in every state, and a step in which the host writes one has no
successor state. -/
def Obligations.ReservedWordIsRefused : Prop :=
  ∀ (cfg : Config) (s : State) (w : CommandWord), w ≠ 0x01 → w ≠ 0x02 → w ≠ 0x03 →
    hostAction cfg (.wrCmd w) s = .refused (.reservedCommand w) ∧
      ∀ rest : List HostAction, (takeTurn s).1 = .host → s.script = .wrCmd w :: rest →
        step s = .refused (.reservedCommand w)

/-! The IGE commands. -/

/-- R92, R94, R96, R77, R39 (that acceptance sets the chaining registers is the model's reading, log 6, and that a
register which nothing has written counts with its reset value its choice, log 2): `ENCRYPT_IGE` from an idle unit, with
the input bytes present and `LEN` a multiple of 16 within the buffer, is accepted
(`IGE_STATUS` = `0x01`, chaining values from `IV`, `BLK` 0), and exactly `LEN/16` block steps and one completion step
later the unit is idle with `IGE_STATUS` = `0x02` and `OBUF[0 .. LEN-1]` is the recurrence applied to the input blocks.
`OBUF` at and beyond `LEN` and all other state are as before. -/
def Obligations.EncryptIgeWritesTheCiphertext : Prop :=
  ∀ s : State, igeReady Config.machine s = true → s.len.value % 16 = 0 →
    ∃ t u : State,
      exec .encryptIge s = .next t ∧
      t = { s with
            igeStatus := 0x01, igeSeen := false, igeOp := some .encrypt,
            prevCipher := ivFirst s.iv.value, prevPlain := ivLast s.iv.value, blk := 0 } ∧
      igeRun Config.machine (s.len.value / 16 + 1) t = .next u ∧
      u = { s with
            igeStatus := 0x02, igeSeen := false, igeOp := none, obuf := u.obuf,
            prevCipher := u.prevCipher, prevPlain := u.prevPlain, blk := s.len.value / 16 } ∧
      (inputBlocks s (s.len.value / 16)).length = s.len.value / 16 ∧
      outputBlocks u (s.len.value / 16) =
        encryptBlocks (Config.machine.blockEncrypt s.key.value) (ivFirst s.iv.value) (ivLast s.iv.value)
          (inputBlocks s (s.len.value / 16)) ∧
      ∀ a, s.len.value ≤ a → u.obuf.read a = s.obuf.read a

/-- R93, R95, R96, R77, R39: the same of `DECRYPT_IGE`, with the same reading of acceptance (log 6, log 2). -/
def Obligations.DecryptIgeWritesThePlaintext : Prop :=
  ∀ s : State, igeReady Config.machine s = true → s.len.value % 16 = 0 →
    ∃ t u : State,
      exec .decryptIge s = .next t ∧
      t = { s with
            igeStatus := 0x01, igeSeen := false, igeOp := some .decrypt,
            prevCipher := ivFirst s.iv.value, prevPlain := ivLast s.iv.value, blk := 0 } ∧
      igeRun Config.machine (s.len.value / 16 + 1) t = .next u ∧
      u = { s with
            igeStatus := 0x02, igeSeen := false, igeOp := none, obuf := u.obuf,
            prevCipher := u.prevCipher, prevPlain := u.prevPlain, blk := s.len.value / 16 } ∧
      (inputBlocks s (s.len.value / 16)).length = s.len.value / 16 ∧
      outputBlocks u (s.len.value / 16) =
        decryptBlocks (Config.machine.blockDecrypt s.key.value) (ivFirst s.iv.value) (ivLast s.iv.value)
          (inputBlocks s (s.len.value / 16)) ∧
      ∀ a, s.len.value ≤ a → u.obuf.read a = s.obuf.read a

/-- R94: a block step of `ENCRYPT_IGE`, enabled while the unit is busy with the command, `LEN` is aligned and
`BLK < LEN/16`. The produced block stands in `OBUF[16*i .. 16*i+15]`, every other byte of `OBUF` and all other state
are as before. At `BLK = LEN/16` the step is the completion with success. -/
def Obligations.EncryptBlockStep : Prop :=
  ∀ (cfg : Config) (s : State), s.igeOp = some .encrypt → s.len.value % 16 = 0 →
    (∀ plain : Block, s.blk < s.len.value / 16 → s.ibuf.readBlock (16 * s.blk) = some plain →
      ∃ u : State, igeUnitStep cfg s = .next u ∧
        u.prevCipher =
          blockXor (cfg.blockEncrypt s.key.value (blockXor plain s.prevPlain)) s.prevCipher ∧
        u.obuf.readBlock (16 * s.blk) = some u.prevCipher ∧
        (∀ a, a < 16 * s.blk ∨ 16 * s.blk + 16 ≤ a → u.obuf.read a = s.obuf.read a) ∧
        u = { s with obuf := u.obuf, prevCipher := u.prevCipher, prevPlain := plain, blk := s.blk + 1 }) ∧
    (s.blk = s.len.value / 16 → igeUnitStep cfg s = .next { s with igeStatus := 0x02, igeOp := none })

/-- R95: a block step of `DECRYPT_IGE`, in the same terms. `PREV_PLAIN` becomes the block just produced and
`PREV_CIPHER` the block just read. -/
def Obligations.DecryptBlockStep : Prop :=
  ∀ (cfg : Config) (s : State), s.igeOp = some .decrypt → s.len.value % 16 = 0 →
    (∀ cipher : Block, s.blk < s.len.value / 16 → s.ibuf.readBlock (16 * s.blk) = some cipher →
      ∃ u : State, igeUnitStep cfg s = .next u ∧
        u.prevPlain =
          blockXor (cfg.blockDecrypt s.key.value (blockXor cipher s.prevCipher)) s.prevPlain ∧
        u.obuf.readBlock (16 * s.blk) = some u.prevPlain ∧
        (∀ a, a < 16 * s.blk ∨ 16 * s.blk + 16 ≤ a → u.obuf.read a = s.obuf.read a) ∧
        u = { s with obuf := u.obuf, prevCipher := cipher, prevPlain := u.prevPlain, blk := s.blk + 1 }) ∧
    (s.blk = s.len.value / 16 → igeUnitStep cfg s = .next { s with igeStatus := 0x02, igeOp := none })

/-- R91: with a misaligned `LEN` either command is accepted by an idle unit whatever `KEY`, `IV` and `IBUF` hold and
whether or not they have been written, and the unit's one step raises `MalformedInput` (`IGE_STATUS` = `0x06`) and
writes nothing else. -/
def Obligations.MisalignedLengthEndsInMalformedInput : Prop :=
  ∀ (s : State) (i : Instr) (c : IgeCommand),
    (i = .encryptIge ∧ c = .encrypt ∨ i = .decryptIge ∧ c = .decrypt) →
    statusBusy s.igeStatus = false → s.len.value % 16 ≠ 0 →
    exec i s = .next { s with igeStatus := 0x01, igeSeen := false, igeOp := some c } ∧
      igeUnitStep Config.machine { s with igeStatus := 0x01, igeSeen := false, igeOp := some c } =
        .next { s with igeStatus := 0x06, igeSeen := false, igeOp := none }

/-- R172: `MalformedInput` is what a step of the busy IGE unit ends its command with when and only when `LEN` is not a
multiple of 16. -/
def Obligations.MalformedInputExactlyOnMisalignedLength : Prop :=
  ∀ s u : State, Inv Config.machine s → s.igeOp.isSome = true → igeUnitStep Config.machine s = .next u →
    (u.igeStatus = 0x06 ↔ s.len.value % 16 ≠ 0)

/-- R97: for every key, decryption inverts encryption from the same initialization value, and the converse. -/
def Obligations.DecryptionInvertsEncryption : Prop :=
  ∀ (cfg : Config) (k : Key) (iv : Iv) (m : List Block),
    decryptBlocks (cfg.blockDecrypt k) (ivFirst iv) (ivLast iv)
        (encryptBlocks (cfg.blockEncrypt k) (ivFirst iv) (ivLast iv) m) = m ∧
      encryptBlocks (cfg.blockEncrypt k) (ivFirst iv) (ivLast iv)
        (decryptBlocks (cfg.blockDecrypt k) (ivFirst iv) (ivLast iv) m) = m

/-- R97 on the machine: if `ENCRYPT_IGE` turns the input of `s` into the output of `u`, and `DECRYPT_IGE` is then run
in a state `v` with the same `KEY`, `IV` and `LEN` whose input is that output, its output is the input of `s`. -/
def Obligations.DecryptCommandUndoesEncryptCommand : Prop :=
  ∀ s t u v w x : State, ∀ n : Nat, n = s.len.value / 16 →
    igeReady Config.machine s = true → s.len.value % 16 = 0 →
    exec .encryptIge s = .next t → igeRun Config.machine (n + 1) t = .next u →
    igeReady Config.machine v = true → v.key = s.key → v.iv = s.iv → v.len = s.len →
    inputBlocks v n = outputBlocks u n →
    exec .decryptIge v = .next w → igeRun Config.machine (n + 1) w = .next x →
    outputBlocks x n = inputBlocks s n

/-- R101: the closed form of encryption, with `P_(-1) = iv2`; and ciphertext block `i` depends on plaintext blocks
`0 .. i` and on no later one. -/
def Obligations.EncryptionClosedForm : Prop :=
  ∀ (e : Block → Block) (iv1 iv2 : Block) (m : List Block) (i : Nat), i < m.length →
    nth (encryptBlocks e iv1 iv2 m) i =
        xorUpTo iv1 (fun j => e (blockXor (nth m j) (prevOf iv2 m j))) (i + 1) ∧
      ∀ m' : List Block, i < m'.length → (∀ j, j ≤ i → nth m' j = nth m j) →
        nth (encryptBlocks e iv1 iv2 m') i = nth (encryptBlocks e iv1 iv2 m) i

/-- R102: the closed form of decryption, with `C_(-1) = iv1`; and plaintext block `i` depends on ciphertext blocks
`0 .. i` and on no later one. -/
def Obligations.DecryptionClosedForm : Prop :=
  ∀ (d : Block → Block) (iv1 iv2 : Block) (z : List Block) (i : Nat), i < z.length →
    nth (decryptBlocks d iv1 iv2 z) i =
        xorUpTo iv2 (fun j => d (blockXor (nth z j) (prevOf iv1 z j))) (i + 1) ∧
      ∀ z' : List Block, i < z'.length → (∀ j, j ≤ i → nth z' j = nth z j) →
        nth (decryptBlocks d iv1 iv2 z') i = nth (decryptBlocks d iv1 iv2 z) i

/-- R103, R96: the output has the length of the input, and the output on the first `m` blocks is the first `m` blocks
of the output, for either command. -/
def Obligations.OutputPrefixDependsOnInputPrefix : Prop :=
  ∀ (f : Block → Block) (iv1 iv2 : Block) (l : List Block) (m : Nat), m ≤ l.length →
    encryptBlocks f iv1 iv2 (l.take m) = (encryptBlocks f iv1 iv2 l).take m ∧
      decryptBlocks f iv1 iv2 (l.take m) = (decryptBlocks f iv1 iv2 l).take m ∧
      (encryptBlocks f iv1 iv2 l).length = l.length ∧ (decryptBlocks f iv1 iv2 l).length = l.length

/-- R104: ciphertexts that differ in block `i` only, decrypted with the same key and initialization value. Blocks
before `i` are unchanged, block `i` changes by the nonzero `d_i`, and every later block by `d_i xor d_(i+1)`, where
`d_(i+1)` is nonzero too. -/
def Obligations.CiphertextGarblePropagation : Prop :=
  ∀ (cfg : Config) (k : Key) (iv1 iv2 : Block) (z z' : List Block) (i : Nat),
    z'.length = z.length → i < z.length → nth z' i ≠ nth z i → (∀ j, j ≠ i → nth z' j = nth z j) →
    let d := cfg.blockDecrypt k
    let out := decryptBlocks d iv1 iv2 z
    let out' := decryptBlocks d iv1 iv2 z'
    let di := blockXor (d (blockXor (nth z' i) (prevOf iv1 z i))) (d (blockXor (nth z i) (prevOf iv1 z i)))
    let di1 := blockXor (d (blockXor (nth z (i + 1)) (nth z' i))) (d (blockXor (nth z (i + 1)) (nth z i)))
    (∀ j, j < i → nth out' j = nth out j) ∧
      diff out' out i = di ∧ di ≠ zeroBlock ∧
      (i + 1 < z.length → di1 ≠ zeroBlock) ∧
      ∀ j, i < j → j < z.length → diff out' out j = blockXor di di1

/-- R105: when `D` is affine over exclusive-or for the key in use, only block `i` changes, by
`D(C'_i xor C_i) xor D(0)`. -/
def Obligations.AffineCipherConfinesGarble : Prop :=
  ∀ (cfg : Config) (k : Key) (iv1 iv2 : Block) (z z' : List Block) (i : Nat),
    Affine (cfg.blockDecrypt k) →
    z'.length = z.length → i < z.length → nth z' i ≠ nth z i → (∀ j, j ≠ i → nth z' j = nth z j) →
    let d := cfg.blockDecrypt k
    let out := decryptBlocks d iv1 iv2 z
    let out' := decryptBlocks d iv1 iv2 z'
    diff out' out i = blockXor (d (blockXor (nth z' i) (nth z i))) (d zeroBlock) ∧
      ∀ j, j ≠ i → nth out' j = nth out j

/-- R106: a change of `iv2` alone changes every decrypted block by the same difference `iv2' xor iv2`; a change of
`iv1` alone changes every decrypted block by `D(C_0 xor iv1') xor D(C_0 xor iv1)`, which is nonzero. -/
def Obligations.IvChangeOnDecryption : Prop :=
  ∀ (cfg : Config) (k : Key) (iv1 iv2 : Block) (z : List Block),
    let d := cfg.blockDecrypt k
    (∀ (iv2' : Block) (j : Nat), j < z.length →
      diff (decryptBlocks d iv1 iv2' z) (decryptBlocks d iv1 iv2 z) j = blockXor iv2' iv2) ∧
    ∀ iv1' : Block, iv1' ≠ iv1 →
      let e := blockXor (d (blockXor (nth z 0) iv1')) (d (blockXor (nth z 0) iv1))
      e ≠ zeroBlock ∧
        ∀ j, j < z.length → diff (decryptBlocks d iv1' iv2 z) (decryptBlocks d iv1 iv2 z) j = e

/-- R107: the mirror image on encryption. Plaintexts that differ in block `i` only; then a change of `iv1` alone, and
of `iv2` alone. -/
def Obligations.PlaintextGarblePropagation : Prop :=
  ∀ (cfg : Config) (k : Key) (iv1 iv2 : Block) (m : List Block),
    let e := cfg.blockEncrypt k
    let out := encryptBlocks e iv1 iv2 m
    (∀ (m' : List Block) (i : Nat),
      m'.length = m.length → i < m.length → nth m' i ≠ nth m i → (∀ j, j ≠ i → nth m' j = nth m j) →
      let out' := encryptBlocks e iv1 iv2 m'
      let ei := blockXor (e (blockXor (nth m' i) (prevOf iv2 m i))) (e (blockXor (nth m i) (prevOf iv2 m i)))
      let ei1 := blockXor (e (blockXor (nth m (i + 1)) (nth m' i))) (e (blockXor (nth m (i + 1)) (nth m i)))
      (∀ j, j < i → nth out' j = nth out j) ∧ diff out' out i = ei ∧ ei ≠ zeroBlock ∧
        ∀ j, i < j → j < m.length → diff out' out j = blockXor ei ei1) ∧
    (∀ (iv1' : Block) (j : Nat), j < m.length → diff (encryptBlocks e iv1' iv2 m) out j = blockXor iv1' iv1) ∧
    ∀ iv2' : Block, iv2' ≠ iv2 →
      let b := blockXor (e (blockXor (nth m 0) iv2')) (e (blockXor (nth m 0) iv2))
      b ≠ zeroBlock ∧ ∀ j, j < m.length → diff (encryptBlocks e iv1 iv2' m) out j = b

/-- R98: the outcome of an IGE command depends on `KEY`, `IV`, `LEN` and `IBUF[0 .. LEN-1]`
alone. Two states that agree on these and are ready give the same status and the same `OBUF[0 .. LEN-1]`, whatever
else they hold, whether or not the registers have been written (the model's choice, log 2). -/
def Obligations.IgeOutcomeDependsOnOperandsOnly : Prop :=
  ∀ (i : Instr) (s t u s' t' u' : State), i = .encryptIge ∨ i = .decryptIge →
    igeReady Config.machine s = true → igeReady Config.machine s' = true → s.len.value % 16 = 0 →
    s'.key.value = s.key.value → s'.iv.value = s.iv.value → s'.len.value = s.len.value →
    (∀ a, a < s.len.value → s'.ibuf.read a = s.ibuf.read a) →
    exec i s = .next t → igeRun Config.machine (s.len.value / 16 + 1) t = .next u →
    exec i s' = .next t' → igeRun Config.machine (s.len.value / 16 + 1) t' = .next u' →
    u'.igeStatus = u.igeStatus ∧ ∀ a, a < s.len.value → u'.obuf.read a = u.obuf.read a

/-! The factorization command. -/

/-- R121, R137, R139, R140, R213: `FACTORIZE_PQ_PAIR` with the unit idle is accepted, whether or not `PQ` has been
written (the model's choice, log 2), and after at most 12,583,065 steps of its unit (12,582,904 applications of `f`,
160 gcds, one completion) it has ended as the pseudocode of R121 says, in `FACT_STATUS`, `P` and `Q`. All other state
but the working registers is as before. That acceptance decides the tests and sets up the search registers is the
model's reading, log 6; that a later cycle, constant or replay is set up without a step of its own, on which the bound
rests, is its choice, log 27. -/
def Obligations.FactorizationEndsAsThePseudocodeSays : Prop :=
  ∀ s : State, factReady s = true →
    ∃ t : State, exec .factorizePqPair s = .next t ∧
      t = { s with factStatus := 0x01, factSeen := false, factOp := t.factOp, search := t.search } ∧
      ∃ k u, k ≤ 12583065 ∧ factRun Config.machine k t = u ∧ u.factOp = none ∧
        u = { applyOutcome (wholeFactorize 2 8 20 s.pq.value.toNat) s with factSeen := false, search := u.search }

/-- R137: a factorization makes at most 12,582,904 applications of `f` and at most 160 batch gcds, however many steps
the unit is given, whether or not `PQ` has been written (the model's choice, log 2). -/
def Obligations.FactorizationWorkIsBounded : Prop :=
  ∀ (s t : State) (k : Nat), factReady s = true → exec .factorizePqPair s = .next t →
    countSteps Config.machine appliesF k t ≤ 12582904 ∧ countSteps Config.machine takesBatchGcd k t ≤ 160

/-- R173: `InvalidInput` is what the step of the busy FACT unit ends its command with when and only when `PQ < 2`. -/
def Obligations.InvalidInputExactlyBelowTwo : Prop :=
  ∀ s : State, Inv Config.machine s → s.factOp.isSome = true →
    ((factUnitStep Config.machine s).factStatus = 0x0A ↔ s.pq.value.toNat < 2)

/-- R122, R173: `PQ` = 0 and `PQ` = 1 end in `InvalidInput` (`FACT_STATUS` = `0x0A`) one step after acceptance, and
nothing else is written: `P` and `Q` stay. So it is also with the reset value of a `PQ` that nothing has written (the
model's choice, log 2). -/
def Obligations.PqBelowTwoIsInvalidInput : Prop :=
  ∀ s : State, factReady s = true → s.pq.value.toNat < 2 →
    ∃ t, exec .factorizePqPair s = .next t ∧
      factUnitStep Config.machine t = { s with factStatus := 0x0A, factSeen := false, factOp := none }

/-- R123: an even `PQ` of at least 2 ends in success one step after acceptance, with `P = 2` and `Q = PQ/2`, and
nothing but the status is written besides. `P <= Q` but for `PQ = 2`. Whether anything has written `PQ` does not matter
(the model's choice, log 2). -/
def Obligations.EvenPqGivesTwoAndHalf : Prop :=
  ∀ s : State, factReady s = true → 2 ≤ s.pq.value.toNat → s.pq.value.toNat % 2 = 0 →
    ∃ t u, exec .factorizePqPair s = .next t ∧ factUnitStep Config.machine t = u ∧
      u = { s with
            factStatus := 0x02, factSeen := false, factOp := none,
            p := ⟨2, true⟩, q := u.q } ∧
      u.q.written = true ∧ u.q.value.toNat = s.pq.value.toNat / 2 ∧
      (u.p.value.toNat ≤ u.q.value.toNat ↔ s.pq.value.toNat ≠ 2)

/-- R132: the step that completes a search with the divisor `d` leaves `P = min(d, PQ/d)` and `Q = max(d, PQ/d)`.
Every step in which a factorization completes with success leaves `P * Q = PQ` as an equation of natural numbers, and
`1 < P <= Q < PQ` when `PQ` is odd. -/
def Obligations.SuccessfulPairMultipliesToPq : Prop :=
  ∀ s : State, Inv Config.machine s → s.factOp.isSome = true →
    (factUnitStep Config.machine s).factStatus = 0x02 →
    let u := factUnitStep Config.machine s
    u.p.written = true ∧ u.q.written = true ∧
      u.p.value.toNat * u.q.value.toNat = s.pq.value.toNat ∧
      (s.pq.value.toNat % 2 = 1 →
        1 < u.p.value.toNat ∧ u.p.value.toNat ≤ u.q.value.toNat ∧ u.q.value.toNat < s.pq.value.toNat) ∧
      (s.factOp = some .found →
        u.p.value.toNat = min s.search.g (s.pq.value.toNat / s.search.g) ∧
          u.q.value.toNat = max s.search.g (s.pq.value.toNat / s.search.g))

/-- R134: for a product of two primes `p <= q` a success gives `(p, q)`, whatever the schedule. -/
def Obligations.SemiprimeSuccessGivesItsPrimes : Prop :=
  ∀ y0 cLast maxCycles p q a b : Nat, p.Prime → q.Prime → p ≤ q →
    wholeFactorize y0 cLast maxCycles (p * q) = .pair a b → a = p ∧ b = q

/-- R135: an odd prime ends in `FactorizationFailed`, for every value of the parameters. -/
def Obligations.OddPrimeFailsForEverySchedule : Prop :=
  ∀ y0 cLast maxCycles p : Nat, p.Prime → p % 2 = 1 →
    wholeFactorize y0 cLast maxCycles p = .error .factorizationFailed

/-- R129: when the product of a batch's differences from 1 is 0 modulo `N`, the replay from the same value against the
same anchor meets a `G > 1` within the steps of the batch. -/
def Obligations.ReplayMeetsADivisor : Prop :=
  ∀ n c x r g : Nat, 1 < n → (wholeBatch n c x r x 1).2 = 0 → 1 < wholeReplay n c x r x g

/-- R32: a step of the FACT unit keeps the ranges of its working registers, also when it sets up the next cycle,
constant or replay within it (the model's choice, log 27). -/
def Obligations.FactStepKeepsRegisterRanges : Prop :=
  ∀ (s : State) (ph : FactPhase), s.factOp = some ph →
    FactInv Config.machine s.pq.value.toNat ph s.search →
    ∀ ph', (factUnitStep Config.machine s).factOp = some ph' →
      FactInv Config.machine s.pq.value.toNat ph' (factUnitStep Config.machine s).search

/-! Refusals of commands. -/

/-- R204: a command for a busy unit is refused. -/
def Obligations.CommandToBusyUnitIsRefused : Prop :=
  ∀ s : State,
    (statusBusy s.igeStatus = true →
      exec .encryptIge s = .refused (.unitBusy .ige) ∧ exec .decryptIge s = .refused (.unitBusy .ige)) ∧
    (statusBusy s.factStatus = true → exec .factorizePqPair s = .refused (.unitBusy .fact))

/-- R207 for the bytes of `IBUF`, R208, R99: the acceptance of an IGE command by an idle unit, for every configuration.
It is refused when `LEN` is a multiple of 16 beyond `BUF_BYTES`, or one within it and a byte of `IBUF[0 .. LEN-1]` holds
no value, and accepted otherwise, with `LEN` 0 or misaligned among the rest, whether or not the registers have been
written since reset. That an unwritten register does not make it refuse is the model's choice (log 2; for `LEN` = 0 also
log 22), and so is that `LEN` beyond the buffer is named before a missing byte (log 24). The two commands are that
acceptance. -/
def Obligations.IdleUnitRefusesOnlyMissingOperands : Prop :=
  (∀ (cfg : Config) (c : IgeCommand) (s : State), statusBusy s.igeStatus = false →
    (s.len.value % 16 = 0 → fitsBuffer cfg s.len.value = false →
      acceptIge cfg c s = .refused .lenExceedsBuffer) ∧
    (s.len.value % 16 = 0 → fitsBuffer cfg s.len.value = true → s.ibuf.hasBytes 0 s.len.value = false →
      acceptIge cfg c s = .refused (.noValue .ibuf)) ∧
    ((s.len.value % 16 = 0 → fitsBuffer cfg s.len.value = true ∧ s.ibuf.hasBytes 0 s.len.value = true) →
      ∃ t, acceptIge cfg c s = .next t) ∧
    (s.len.value = 0 → ∃ t, acceptIge cfg c s = .next t)) ∧
  ∀ s : State,
    exec .encryptIge s = acceptIge Config.machine .encrypt s ∧
      exec .decryptIge s = acceptIge Config.machine .decrypt s

/-- R77, R204: `FACTORIZE_PQ_PAIR` is accepted exactly when the FACT unit is idle, whatever `PQ` holds; that a `PQ`
which nothing has written since reset does not make it refuse is the model's choice (log 2). -/
def Obligations.IdleFactUnitAcceptsEveryPq : Prop :=
  ∀ s : State, (∃ t, exec .factorizePqPair s = .next t) ↔ statusBusy s.factStatus = false

/-- R207, R202: commands whose operands have been written do the same whatever the reset values of the operand registers
are. When the registers that the command in hand reads (the two IGE commands read the same ones) have been written since
reset, its acceptance, and every step of its unit, does the same whatever values stand in those of `KEY`, `IV`, `LEN`
and `PQ` that nothing has written (log 1). It says nothing of the reset values of `P`, `Q` and the working registers,
and nothing of the host's reads: the read-back of an unwritten register returns its reset value (log 2), to any host. -/
def Obligations.WrittenCommandsIgnoreOperandResetValues : Prop :=
  ∀ (k : Key) (v : Iv) (n : Nat) (x : U64) (s : State),
    (∀ (i : Instr) (t : State), operandsWritten i s = true → exec i s = .next t →
      exec i (withOtherResetValues k v n x s) = .next (withOtherResetValues k v n x t)) ∧
    (∀ (cfg : Config) (t : State), operandsWritten .encryptIge s = true → igeUnitStep cfg s = .next t →
      igeUnitStep cfg (withOtherResetValues k v n x s) = .next (withOtherResetValues k v n x t)) ∧
    ∀ cfg : Config, operandsWritten .factorizePqPair s = true →
      factUnitStep cfg (withOtherResetValues k v n x s) = withOtherResetValues k v n x (factUnitStep cfg s)

/-! The host's side. -/

/-- R203: while a unit is busy a host write to one of its operands is refused; the operands of an idle unit can be
written although the other unit is busy. A number wider than the register leaves in `LEN` some number of `LENW` bits,
in `PQ` some number of 64 bits (log 13), and a `WRBUF` of no bytes is no write of an operand (log 26): both are the
model's choice. -/
def Obligations.OperandsOfABusyUnitAreNotWritten : Prop :=
  ∀ (cfg : Config) (s : State) (k : Key) (v : Iv) (n x : Nat) (a : Nat) (bs : List Byte),
    addressesExist cfg a bs.length = true →
    (statusBusy s.igeStatus = true →
      hostAction cfg (.wrKey k) s = .refused (.operandOfBusyUnit .key) ∧
      hostAction cfg (.wrIv v) s = .refused (.operandOfBusyUnit .iv) ∧
      hostAction cfg (.wrLen n) s = .refused (.operandOfBusyUnit .len) ∧
      (bs ≠ [] → hostAction cfg (.wrIbuf a bs) s = .refused (.operandOfBusyUnit .ibuf))) ∧
    (statusBusy s.factStatus = true → hostAction cfg (.wrPq x) s = .refused (.operandOfBusyUnit .pq)) ∧
    (statusBusy s.igeStatus = false →
      hostAction cfg (.wrKey k) s = .next { s with key := ⟨k, true⟩ } ∧
      hostAction cfg (.wrIv v) s = .next { s with iv := ⟨v, true⟩ } ∧
      (n < 2 ^ cfg.lenW → hostAction cfg (.wrLen n) s = .next { s with len := ⟨n, true⟩ }) ∧
      (2 ^ cfg.lenW ≤ n → ∃ v, v < 2 ^ cfg.lenW ∧
        hostAction cfg (.wrLen n) s = .next { s with len := ⟨v, true⟩, draws := s.draws + 1 })) ∧
    (statusBusy s.factStatus = false →
      (x < 2 ^ 64 → hostAction cfg (.wrPq x) s = .next { s with pq := ⟨BitVec.ofNat 64 x, true⟩ }) ∧
      (2 ^ 64 ≤ x → ∃ v : U64,
        hostAction cfg (.wrPq x) s = .next { s with pq := ⟨v, true⟩, draws := s.draws + 1 }))

/-- `WRBUF` (R78, `20_memory.md` R50, R60): the bytes stand in `IBUF` from address `a` upward, every other byte of
`IBUF` and all other state are as before. Two clauses are the model's: an access to an address that does not exist is a
fault (log 12), named so also while the unit is busy (log 24), and a `WRBUF` of no bytes changes nothing, also while the
unit is busy (log 26). -/
def Obligations.WrbufStoresItsBytes : Prop :=
  ∀ (cfg : Config) (s : State) (a : Nat) (bs : List Byte),
    (addressesExist cfg a bs.length = false →
      hostAction cfg (.wrIbuf a bs) s = .fault (.noSuchAddress .ibuf (a + bs.length - 1))) ∧
    (bs = [] → hostAction cfg (.wrIbuf a bs) s = .next s) ∧
    (addressesExist cfg a bs.length = true → statusBusy s.igeStatus = false →
      ∃ u, hostAction cfg (.wrIbuf a bs) s = .next u ∧ u = { s with ibuf := u.ibuf } ∧
        (∀ j, j < bs.length → u.ibuf.read (a + j) = bs[j]?) ∧
        ∀ x, x < a ∨ a + bs.length ≤ x → u.ibuf.read x = s.ibuf.read x)

/-- R205, R62 (b): results are read only after the host has read success. Before that a read of `OBUF`, `P` or `Q` is
refused; after it the read returns the register, or the bytes that stand in `OBUF`, and changes nothing but the datum,
and a read of `OBUF` with a byte that holds no value is still refused (R35, X4).
A read of a status register, also as one read of `WAIT`, returns the word, and marks success as read exactly when
the word is that of a success; a `WAIT` whose read finds `DONE` = 0 is repeated. The record of what the host has read is
the model's (log 10); that bytes at or beyond `LEN` can be read is the model's reading of R59 and X4 (log 11); a read of
no bytes, at any time, is the model's choice (log 26). -/
def Obligations.ResultsAreReadAfterSuccessOnly : Prop :=
  ∀ (cfg : Config) (s : State) (a n : Nat), addressesExist cfg a n = true →
    (s.igeSeen = false → n ≠ 0 → hostAction cfg (.rdObuf a n) s = .refused (.notAResult .obuf)) ∧
    (n = 0 → hostAction cfg (.rdObuf a n) s = .next { s with readData := some (.buffer []) }) ∧
    (s.igeSeen = true → s.obuf.hasBytes a n = true →
      ∃ bs, hostAction cfg (.rdObuf a n) s = .next { s with readData := some (.buffer bs) } ∧
        bs.length = n ∧ ∀ j, j < n → bs[j]? = s.obuf.read (a + j)) ∧
    (s.igeSeen = true → s.obuf.hasBytes a n = false →
      hostAction cfg (.rdObuf a n) s = .refused (.noValue .obuf)) ∧
    (s.factSeen = false →
      hostAction cfg (.rd .p) s = .refused (.notAResult .p) ∧
      hostAction cfg (.rd .q) s = .refused (.notAResult .q)) ∧
    (s.factSeen = true →
      hostAction cfg (.rd .p) s = .next { s with readData := some (.integer s.p.value) } ∧
      hostAction cfg (.rd .q) s = .next { s with readData := some (.integer s.q.value) }) ∧
    hostAction cfg (.rd .igeStatus) s =
      .next { s with readData := some (.status s.igeStatus), igeSeen := s.igeSeen || statusIsSuccess s.igeStatus } ∧
    hostAction cfg (.rd .factStatus) s =
      .next { s with
        readData := some (.status s.factStatus), factSeen := s.factSeen || statusIsSuccess s.factStatus } ∧
    hostAction cfg (.wait .ige) s =
      .next { s with
        readData := some (.status s.igeStatus), igeSeen := s.igeSeen || statusIsSuccess s.igeStatus,
        script := if statusDone s.igeStatus then s.script else .wait .ige :: s.script } ∧
    hostAction cfg (.wait .fact) s =
      .next { s with
        readData := some (.status s.factStatus), factSeen := s.factSeen || statusIsSuccess s.factStatus,
        script := if statusDone s.factStatus then s.script else .wait .fact :: s.script } ∧
    ∀ w : BitVec 8, igeStatusLegal w = true ∨ factStatusLegal w = true → (statusIsSuccess w = true ↔ w = 0x02)

/-- R34: the read-back of an operand returns what the register, or the bytes of `IBUF`, hold and changes nothing but the
datum. Choices of the model: it is allowed while a unit is busy (log 20); a register that nothing has written since
reset returns its reset value (log 1, log 2); a read-back of no bytes completes (log 26). A byte of `IBUF` that nothing
has written holds no value and its read-back is refused (R35). -/
def Obligations.ReadBackReturnsWhatWasWritten : Prop :=
  ∀ (cfg : Config) (s : State) (a n : Nat),
    hostAction cfg (.rd .key) s = .next { s with readData := some (.sequence s.key.value) } ∧
    hostAction cfg (.rd .iv) s = .next { s with readData := some (.sequence s.iv.value) } ∧
    hostAction cfg (.rd .len) s = .next { s with readData := some (.length s.len.value) } ∧
    hostAction cfg (.rd .pq) s = .next { s with readData := some (.integer s.pq.value) } ∧
    (addressesExist cfg a n = true → s.ibuf.hasBytes a n = true →
      ∃ bs, hostAction cfg (.rdIbuf a n) s = .next { s with readData := some (.buffer bs) } ∧
        bs.length = n ∧ ∀ j, j < n → bs[j]? = s.ibuf.read (a + j)) ∧
    (addressesExist cfg a n = true → s.ibuf.hasBytes a n = false →
      hostAction cfg (.rdIbuf a n) s = .refused (.noValue .ibuf))

/-- R34, R27: a host write to `P`, `Q`, `OBUF` or a status register has no effect, and `CMD` cannot be read. That it has
none also while a unit is busy is the model's reading (log 17). -/
def Obligations.ReadOnlyWritesHaveNoEffect : Prop :=
  ∀ (cfg : Config) (s : State) (a : Nat), addressesExist cfg a 1 = true →
    hostAction cfg (.wrReadOnly .p) s = .next s ∧ hostAction cfg (.wrReadOnly .q) s = .next s ∧
    hostAction cfg (.wrReadOnly .igeStatus) s = .next s ∧
    hostAction cfg (.wrReadOnly .factStatus) s = .next s ∧
    hostAction cfg (.wrReadOnly (.obuf a)) s = .next s ∧
    hostAction cfg (.rd .cmd) s = .refused .cmdIsWriteOnly

/-- R37, R200, R201: a reset leaves both status registers `0x00`, both units idle, and every operand register, result
register and buffer byte without a value in the sense of R35, whatever was in progress. The values the registers have
all the same are the model's (log 1), and so is that the script goes on after it (log 15). -/
def Obligations.ResetLeavesNoValue : Prop :=
  ∀ (s : State) (rest : List HostAction) (ts : List Agent),
    s.turns = .host :: ts → s.script = .reset :: rest →
    ∃ u, step s = .next u ∧
      u.igeStatus = 0x00 ∧ u.factStatus = 0x00 ∧ u.igeOp = none ∧ u.factOp = none ∧
      u.key.read = none ∧ u.iv.read = none ∧ u.len.read = none ∧ u.pq.read = none ∧
      u.p.read = none ∧ u.q.read = none ∧
      (∀ a, u.ibuf.read a = none ∧ u.obuf.read a = none) ∧
      u.igeSeen = false ∧ u.factSeen = false ∧ u.script = rest ∧ u.turns = ts

/-- R79, R213: a `WAIT` on a unit that is busy or has completed ends after finitely many steps of the machine,
whatever the turns are, because every accepted command completes. It rests on the model's fair default of log 8. -/
def Obligations.WaitEnds : Prop :=
  ∀ (s : State) (u : UnitId) (rest : List HostAction), Inv Config.machine s → s.script = .wait u :: rest →
    statusOf u s ≠ 0 →
    ∃ n t, Host.Core.run core n s = .next t ∧ t.script = rest

/-! The whole machine. -/

/-- The state after reset meets the invariant. It rests on the values of log 1 for the width of `LEN` only. -/
def Obligations.ResetMeetsTheInvariant : Prop := Inv Config.machine State.reset

/-- Every step keeps the invariant: canonical buffers within `BUF_BYTES`, legal status values that agree with what
the units are doing, input bytes present while the IGE unit is busy, working registers in range. -/
def Obligations.StepKeepsTheInvariant : Prop :=
  ∀ s t : State, Inv Config.machine s → step s = .next t → Inv Config.machine t

/-- R28, R29, R62 (c): the status registers only ever hold the words idle, busy, done, and done with an error of their
own unit. -/
def Obligations.StatusRegistersStayLegal : Prop :=
  ∀ s t : State,
    s.igeStatus ∈ [0x00, 0x01, 0x02, 0x06] → s.factStatus ∈ [0x00, 0x01, 0x02, 0x0A, 0x0E] →
    step s = .next t →
    t.igeStatus ∈ [0x00, 0x01, 0x02, 0x06] ∧ t.factStatus ∈ [0x00, 0x01, 0x02, 0x0A, 0x0E]

/-- Every step keeps both buffers in canonical form. -/
def Obligations.BuffersStayCanonical : Prop :=
  ∀ s t : State, s.ibuf.wf = true → s.obuf.wf = true → step s = .next t → t.ibuf.wf = true ∧ t.obuf.wf = true

/-- A step stops only when the host has the turn and its action breaks a duty (R203 to R208) or names what does not
exist; an action that breaks none is carried out. It rests on choices of the model: registers that nothing has written
have their reset values and make no command or read stop (log 1, log 2), `RDBUF` beyond `LEN` (log 11), the fault of an
address that does not exist (log 12), a write of a wide number to `LEN` or `PQ` (log 13), the turn of an idle agent
(log 14), a write to a read-only place while a unit is busy (log 17), read-back while a unit is busy (log 20), a command
with `LEN` = 0 without `KEY` and `IV` (log 22), transfers of no bytes (log 26). -/
def Obligations.OnlyABreachOfDutyStopsTheMachine : Prop :=
  ∀ s : State, Inv Config.machine s →
    ((∃ t, step s = .next t) ↔
      ∀ a rest, (takeTurn s).1 = .host → s.script = a :: rest → permitted Config.machine a s = true)

/-- R3, R212: the steps of the two units commute. -/
def Obligations.UnitStepsCommute : Prop :=
  ∀ (cfg : Config) (s t : State), igeUnitStep cfg s = .next t →
    igeUnitStep cfg (factUnitStep cfg s) = .next (factUnitStep cfg t)

/-- R3, R34, R39, R109: a step of the IGE unit writes `OBUF`, `IGE_STATUS`, its working registers and nothing else; a
step of the FACT unit writes `P`, `Q`, `FACT_STATUS`, its working registers and nothing else. -/
def Obligations.UnitStepsWriteOnlyTheirOwnState : Prop :=
  (∀ (cfg : Config) (s t : State), igeUnitStep cfg s = .next t →
    t = { s with
          obuf := t.obuf, igeStatus := t.igeStatus, igeOp := t.igeOp, prevCipher := t.prevCipher,
          prevPlain := t.prevPlain, blk := t.blk }) ∧
  ∀ (cfg : Config) (s : State),
    factUnitStep cfg s =
      { s with
        p := (factUnitStep cfg s).p, q := (factUnitStep cfg s).q, factStatus := (factUnitStep cfg s).factStatus,
        factOp := (factUnitStep cfg s).factOp, search := (factUnitStep cfg s).search }

/-- R34, R39: the CORE never writes an operand. A step that changes `KEY`, `IV`, `LEN`, `PQ` or `IBUF` is a host write
of that operand, or a reset. -/
def Obligations.OperandsAreWrittenByTheHostOnly : Prop :=
  ∀ s t : State, step s = .next t →
    (t.key ≠ s.key ∨ t.iv ≠ s.iv ∨ t.len ≠ s.len ∨ t.pq ≠ s.pq ∨ t.ibuf ≠ s.ibuf) →
    (takeTurn s).1 = .host ∧
      ∃ a rest, s.script = a :: rest ∧
        (a = .reset ∨ (∃ k, a = .wrKey k ∧ t = { s with key := t.key, script := rest, turns := t.turns }) ∨
          (∃ v, a = .wrIv v ∧ t = { s with iv := t.iv, script := rest, turns := t.turns }) ∨
          (∃ n, a = .wrLen n ∧ t = { s with len := t.len, script := rest, turns := t.turns, draws := t.draws }) ∨
          (∃ x, a = .wrPq x ∧ t = { s with pq := t.pq, script := rest, turns := t.turns, draws := t.draws }) ∨
          ∃ b bs, a = .wrIbuf b bs ∧ t = { s with ibuf := t.ibuf, script := rest, turns := t.turns })

/-- R26, R176: `P` and `Q` change only in the step in which a factorization completes with success, or at a reset. -/
def Obligations.ResultsAreWrittenAtSuccessOnly : Prop :=
  ∀ s t : State, step s = .next t → (t.p ≠ s.p ∨ t.q ≠ s.q) →
    ((takeTurn s).1 = .factUnit ∧ s.factOp.isSome = true ∧ t.factOp = none ∧ t.factStatus = 0x02 ∧
        t.p.written = true ∧ t.q.written = true) ∨
      ((takeTurn s).1 = .host ∧ ∃ rest, s.script = .reset :: rest)

/-- R50, R59: a byte of `OBUF` changes only in a block step of the IGE unit, inside the block at `16*BLK`, which lies
below `LEN`; or at a reset. -/
def Obligations.ObufIsWrittenByBlockStepsOnly : Prop :=
  ∀ (s t : State) (a : Nat), step s = .next t → t.obuf.read a ≠ s.obuf.read a →
    ((takeTurn s).1 = .igeUnit ∧ s.igeOp.isSome = true ∧ 16 * s.blk ≤ a ∧ a < 16 * s.blk + 16 ∧
        a < s.len.value) ∨
      ((takeTurn s).1 = .host ∧ ∃ rest, s.script = .reset :: rest)

/-- R180: `DONE` and `ERR` of a unit keep their values until the next command for that unit is accepted, which sets
(`BUSY`, `DONE`, `ERR`) to (1, 0, 0), or until reset: the step that changes them is the host's. -/
def Obligations.OutcomeStaysUntilNextCommandOrReset : Prop :=
  ∀ s t : State, Inv Config.machine s → step s = .next t →
    (statusDone s.igeStatus = true → t.igeStatus ≠ s.igeStatus →
      (takeTurn s).1 = .host ∧ ∃ rest, (s.script = .reset :: rest ∧ t.igeStatus = 0x00) ∨
        ((s.script = .wrCmd 0x01 :: rest ∨ s.script = .wrCmd 0x02 :: rest) ∧ t.igeStatus = 0x01)) ∧
    (statusDone s.factStatus = true → t.factStatus ≠ s.factStatus →
      (takeTurn s).1 = .host ∧ ∃ rest, (s.script = .reset :: rest ∧ t.factStatus = 0x00) ∨
        (s.script = .wrCmd 0x03 :: rest ∧ t.factStatus = 0x01))

/-- R174, R177: a unit step that ends a command with an error writes the unit's status register and nothing else. -/
def Obligations.ErrorsWriteNothingButTheStatus : Prop :=
  (∀ s t : State, Inv Config.machine s → s.igeOp.isSome = true → igeUnitStep Config.machine s = .next t →
    t.igeOp = none → t.igeStatus ≠ 0x02 → t = { s with igeStatus := 0x06, igeOp := none }) ∧
  ∀ s t : State, Inv Config.machine s → s.factOp.isSome = true → factUnitStep Config.machine s = t →
    t.factOp = none → t.factStatus ≠ 0x02 →
    t = { s with factStatus := 0x0A, factOp := none } ∨ t = { s with factStatus := 0x0E, factOp := none }
end

