-- ==== Sys2Proof/Laws/Blocks.lean ====
section
/-! SUPPORT. The laws of the exclusive-or of blocks, and of the cipher (spec/42_cipher_primitive.md R161). -/

namespace Sys2Proof.Machine

open Sys2Proof.Safety

@[simp] theorem getElem_blockXor (a b : Block) (j : Nat) (h : j < 16) : (blockXor a b)[j] = a[j] ^^^ b[j] := by
  simp [blockXor]

@[simp] theorem getElem_zeroBlock (j : Nat) (h : j < 16) : zeroBlock[j] = 0 := by simp [zeroBlock]

theorem blockXor_comm (a b : Block) : blockXor a b = blockXor b a := by
  ext j hj : 1; simp [BitVec.xor_comm]

theorem blockXor_assoc (a b c : Block) : blockXor (blockXor a b) c = blockXor a (blockXor b c) := by
  ext j hj : 1; simp [BitVec.xor_assoc]

theorem blockXor_left_comm (a b c : Block) : blockXor a (blockXor b c) = blockXor b (blockXor a c) := by
  rw [← blockXor_assoc, blockXor_comm a b, blockXor_assoc]

@[simp] theorem blockXor_self (a : Block) : blockXor a a = zeroBlock := by ext j hj : 1; simp

@[simp] theorem blockXor_zero (a : Block) : blockXor a zeroBlock = a := by ext j hj : 1; simp

@[simp] theorem zero_blockXor (a : Block) : blockXor zeroBlock a = a := by ext j hj : 1; simp

@[simp] theorem blockXor_cancel_left (a b : Block) : blockXor a (blockXor a b) = b := by
  rw [← blockXor_assoc]; simp

@[simp] theorem blockXor_cancel_right (a b : Block) : blockXor (blockXor a b) b = a := by
  rw [blockXor_assoc]; simp

/-- Two blocks differ by zero only when they are equal. -/
theorem blockXor_eq_zero (a b : Block) : blockXor a b = zeroBlock ↔ a = b := by
  constructor
  · intro h
    have := blockXor_cancel_right a b
    rw [h] at this; simpa using this.symm
  · rintro rfl; simp

theorem blockXor_right_inj (a b c : Block) : blockXor a c = blockXor b c ↔ a = b := by
  constructor
  · intro h; rw [← blockXor_cancel_right a c, h, blockXor_cancel_right]
  · rintro rfl; rfl

/-- `BlockDecrypt` inverts `BlockEncrypt` (R161). -/
@[simp] theorem blockDecrypt_blockEncrypt (cfg : Config) (k : Key) (b : Block) :
    cfg.blockDecrypt k (cfg.blockEncrypt k b) = b := by simp [Config.blockDecrypt, Config.blockEncrypt]

/-- `BlockEncrypt` inverts `BlockDecrypt` (R161). -/
@[simp] theorem blockEncrypt_blockDecrypt (cfg : Config) (k : Key) (b : Block) :
    cfg.blockEncrypt k (cfg.blockDecrypt k b) = b := by simp [Config.blockDecrypt, Config.blockEncrypt]

theorem blockDecrypt_inj (cfg : Config) (k : Key) {a b : Block} :
    cfg.blockDecrypt k a = cfg.blockDecrypt k b ↔ a = b := (cfg.cipher k).symm.injective.eq_iff

theorem blockEncrypt_inj (cfg : Config) (k : Key) {a b : Block} :
    cfg.blockEncrypt k a = cfg.blockEncrypt k b ↔ a = b := (cfg.cipher k).injective.eq_iff

end Sys2Proof.Machine
end

