-- ==== Sys2Proof/Laws/Memory.lean ====
section
/-! SUPPORT. The laws of the buffers: read after write, and that every operation keeps the canonical form. -/

namespace Sys2Proof.Machine

/-- A read of the address just written gives the byte written. -/
@[simp] theorem Memory.read_write_same (m : Memory) (a : Nat) (v : Byte) : (m.write a v).read a = some v := by
  induction m with
  | nil => simp [Memory.write, Memory.read]
  | cons c m ih =>
    obtain ⟨x, b⟩ := c
    unfold Memory.write
    split
    · simp [Memory.read]
    · split
      · simp [Memory.read]
      · rename_i h; simp [Memory.read, h, ih]

/-- A write leaves every other address alone. -/
theorem Memory.read_write_other (m : Memory) {a x : Nat} (v : Byte) (h : x ≠ a) :
    (m.write a v).read x = m.read x := by
  induction m with
  | nil => simp [Memory.write, Memory.read, h]
  | cons c m ih =>
    obtain ⟨y, b⟩ := c
    unfold Memory.write
    split
    · simp [Memory.read, h]
    · split
      · rename_i hy; subst hy; simp [Memory.read, h]
      · simp [Memory.read, ih]

theorem Memory.read_write (m : Memory) (a x : Nat) (v : Byte) :
    (m.write a v).read x = if x = a then some v else m.read x := by
  split
  · subst x; exact m.read_write_same a v
  · exact m.read_write_other v ‹_›

/-- The canonical form in terms of the head. -/
theorem Memory.wf_cons (c : Host.Cell) (m : Memory) :
    Memory.wf (c :: m) = true ↔ (∀ d, m.head? = some d → c.1 < d.1) ∧ Memory.wf m = true := by
  obtain ⟨a, b⟩ := c
  cases m with
  | nil => simp [Memory.wf]
  | cons d m => obtain ⟨a', b'⟩ := d; simp [Memory.wf]

/-- The first address after a write is the old first address or the one written. -/
theorem Memory.head_write (m : Memory) (a : Nat) (v : Byte) (d : Host.Cell) (h : (m.write a v).head? = some d) :
    d.1 = a ∨ ∃ d', m.head? = some d' ∧ d'.1 = d.1 := by
  cases m with
  | nil => simp [Memory.write] at h; subst h; simp
  | cons c m =>
    obtain ⟨x, b⟩ := c
    unfold Memory.write at h
    split at h
    · simp at h; subst h; simp
    · split at h <;> (simp at h; subst h; simp)

/-- A write keeps the canonical form. -/
theorem Memory.wf_write (m : Memory) (a : Nat) (v : Byte) (h : m.wf = true) : (m.write a v).wf = true := by
  induction m with
  | nil => rfl
  | cons c m ih =>
    obtain ⟨x, b⟩ := c
    obtain ⟨h1, h2⟩ := (Memory.wf_cons _ _).1 h
    unfold Memory.write
    split
    · rename_i hx
      exact (Memory.wf_cons _ _).2 ⟨by simpa using hx, h⟩
    · split
      · rename_i hx; subst hx
        exact (Memory.wf_cons _ _).2 ⟨h1, h2⟩
      · rename_i hlt hne
        refine (Memory.wf_cons _ _).2 ⟨fun d hd => ?_, ih h2⟩
        rcases Memory.head_write m a v d hd with hd' | ⟨d', hd', he⟩
        · simp only; omega
        · have := h1 d' hd'; simp only at this ⊢; omega

/-- A write at an existing address keeps every listed address below the capacity. -/
theorem Memory.below_write (cap : Option Nat) (m : Memory) (a : Nat) (v : Byte) (h : m.below cap = true)
    (ha : ∀ c, cap = some c → a < c) : (m.write a v).below cap = true := by
  cases cap with
  | none => rfl
  | some c =>
    have ha := ha c rfl
    simp only [Memory.below, List.all_eq_true, decide_eq_true_eq] at *
    induction m with
    | nil => simpa [Memory.write] using ha
    | cons d m ih =>
      obtain ⟨x, b⟩ := d
      unfold Memory.write
      have hm := ih fun y hy => h y (List.mem_cons_of_mem _ hy)
      have hx := h (x, b) List.mem_cons_self
      split
      · intro y hy
        rcases List.mem_cons.1 hy with rfl | hy
        · exact ha
        · exact h y hy
      · split
        · intro y hy
          rcases List.mem_cons.1 hy with rfl | hy
          · exact ha
          · exact h y (List.mem_cons_of_mem _ hy)
        · intro y hy
          rcases List.mem_cons.1 hy with rfl | hy
          · exact hx
          · exact hm y hy

/-- A byte after a write of several. -/
theorem Memory.read_writeBytes (bs : List Byte) (m : Memory) (a x : Nat) :
    (m.writeBytes a bs).read x = if a ≤ x ∧ x < a + bs.length then bs[x - a]? else m.read x := by
  induction bs generalizing m a with
  | nil => simp [Memory.writeBytes]
  | cons b bs ih =>
    rw [Memory.writeBytes, ih, Memory.read_write]
    simp only [List.length_cons]
    by_cases h : x = a
    · subst h
      rw [if_neg (by omega), if_pos rfl, if_pos (by omega)]
      simp
    · by_cases h2 : a + 1 ≤ x ∧ x < a + 1 + bs.length
      · have : x - a = (x - (a + 1)) + 1 := by omega
        rw [if_pos h2, if_pos (by omega), this, List.getElem?_cons_succ]
      · rw [if_neg h2, if_neg h, if_neg (by omega)]

theorem Memory.wf_writeBytes (bs : List Byte) (m : Memory) (a : Nat) (h : m.wf = true) :
    (m.writeBytes a bs).wf = true := by
  induction bs generalizing m a with
  | nil => exact h
  | cons b bs ih => exact ih _ _ (m.wf_write a b h)

theorem Memory.below_writeBytes (cap : Option Nat) (bs : List Byte) (m : Memory) (a : Nat)
    (h : m.below cap = true) (ha : ∀ c, cap = some c → bs ≠ [] → a + bs.length ≤ c) :
    (m.writeBytes a bs).below cap = true := by
  induction bs generalizing m a with
  | nil => exact h
  | cons b bs ih =>
    refine ih _ _ (m.below_write cap a b h fun c hc => ?_) fun c hc _ => ?_
    · have := ha c hc (by simp); simp at this; omega
    · have := ha c hc (by simp); simp at this; omega

theorem Memory.hasBytes_iff (m : Memory) (a n : Nat) :
    m.hasBytes a n = true ↔ ∀ j, j < n → (m.read (a + j)).isSome = true := by
  simp [Memory.hasBytes, List.all_eq_true]

theorem Memory.read_of_hasBytes {m : Memory} {a n j : Nat} (h : m.hasBytes a n = true) (hj : j < n) :
    m.read (a + j) = some (m.byteAt (a + j)) := by
  have := (m.hasBytes_iff a n).1 h j hj
  obtain ⟨v, hv⟩ := Option.isSome_iff_exists.1 this
  simp [Memory.byteAt, hv]

/-- The bytes of a block just written. -/
theorem Memory.read_writeBlock (m : Memory) (a x : Nat) (b : Block) :
    (m.writeBlock a b).read x = if h : a ≤ x ∧ x < a + 16 then some b[x - a] else m.read x := by
  rw [Memory.writeBlock, Memory.read_writeBytes]
  simp only [Vector.length_toList]
  split
  · rename_i h
    simp [Vector.getElem?_toList]
  · rfl

theorem Memory.readBlock_eq_some (m : Memory) (a : Nat) (b : Block) :
    m.readBlock a = some b ↔ ∀ j (h : j < 16), m.read (a + j) = some b[j] := by
  unfold Memory.readBlock
  split
  · rename_i h
    constructor
    · rintro ⟨⟩ j hj
      rw [Memory.read_of_hasBytes h hj]; simp
    · intro hb
      congr 1
      ext j hj
      have := hb j hj
      simp [Memory.byteAt, this]
  · rename_i h
    simp only [reduceCtorEq, false_iff]
    intro hb
    exact h ((m.hasBytes_iff a 16).2 fun j hj => by simp [hb j hj])

/-- A block just written reads back. -/
@[simp] theorem Memory.readBlock_writeBlock_same (m : Memory) (a : Nat) (b : Block) :
    (m.writeBlock a b).readBlock a = some b := by
  rw [Memory.readBlock_eq_some]
  intro j hj
  rw [Memory.read_writeBlock, dif_pos (by omega)]
  simp

/-- Reads of a block depend on its sixteen bytes only. -/
theorem Memory.readBlock_congr {m m' : Memory} {a : Nat} (h : ∀ j, j < 16 → m'.read (a + j) = m.read (a + j)) :
    m'.readBlock a = m.readBlock a := by
  have hb : m'.hasBytes a 16 = m.hasBytes a 16 := by
    rw [Bool.eq_iff_iff, Memory.hasBytes_iff, Memory.hasBytes_iff]
    constructor <;> intro hx j hj
    · rw [← h j hj]; exact hx j hj
    · rw [h j hj]; exact hx j hj
  unfold Memory.readBlock
  rw [hb]
  split
  · congr 1; ext j hj; simp [Memory.byteAt, h j hj]
  · rfl

theorem Memory.readBlock_writeBlock_other (m : Memory) (a x : Nat) (b : Block) (h : x + 16 ≤ a ∨ a + 16 ≤ x) :
    (m.writeBlock a b).readBlock x = m.readBlock x :=
  Memory.readBlock_congr fun j hj => by rw [Memory.read_writeBlock, dif_neg (by omega)]

theorem Memory.readBlock_isSome {m : Memory} {a : Nat} (h : m.hasBytes a 16 = true) :
    ∃ b, m.readBlock a = some b := by simp [Memory.readBlock, h]

theorem Memory.wf_writeBlock (m : Memory) (a : Nat) (b : Block) (h : m.wf = true) :
    (m.writeBlock a b).wf = true := Memory.wf_writeBytes _ _ _ h

/-- A block that holds values among bytes that do. -/
theorem Memory.hasBytes_sub {m : Memory} {a n a' n' : Nat} (h : m.hasBytes a n = true) (h1 : a ≤ a')
    (h2 : a' + n' ≤ a + n) : m.hasBytes a' n' = true := by
  rw [Memory.hasBytes_iff] at *
  intro j hj
  have := h (a' + j - a) (by omega)
  rwa [show a + (a' + j - a) = a' + j by omega] at this

end Sys2Proof.Machine
end

