-- ==== Sys2Proof/Laws/State.lean ====
section
/-! SUPPORT. One lemma per field per update of the state, so that no later proof unfolds a record update. -/

namespace Sys2Proof.Machine

/-! Acceptance by the IGE unit. -/

@[simp] theorem accept_ige_key (s : State) : (accept .ige s).key = s.key := rfl
@[simp] theorem accept_ige_iv (s : State) : (accept .ige s).iv = s.iv := rfl
@[simp] theorem accept_ige_len (s : State) : (accept .ige s).len = s.len := rfl
@[simp] theorem accept_ige_pq (s : State) : (accept .ige s).pq = s.pq := rfl
@[simp] theorem accept_ige_p (s : State) : (accept .ige s).p = s.p := rfl
@[simp] theorem accept_ige_q (s : State) : (accept .ige s).q = s.q := rfl
@[simp] theorem accept_ige_igeStatus (s : State) : (accept .ige s).igeStatus = statusAccepted := rfl
@[simp] theorem accept_ige_factStatus (s : State) : (accept .ige s).factStatus = s.factStatus := rfl
@[simp] theorem accept_ige_ibuf (s : State) : (accept .ige s).ibuf = s.ibuf := rfl
@[simp] theorem accept_ige_obuf (s : State) : (accept .ige s).obuf = s.obuf := rfl
@[simp] theorem accept_ige_igeOp (s : State) : (accept .ige s).igeOp = s.igeOp := rfl
@[simp] theorem accept_ige_prevCipher (s : State) : (accept .ige s).prevCipher = s.prevCipher := rfl
@[simp] theorem accept_ige_prevPlain (s : State) : (accept .ige s).prevPlain = s.prevPlain := rfl
@[simp] theorem accept_ige_blk (s : State) : (accept .ige s).blk = s.blk := rfl
@[simp] theorem accept_ige_factOp (s : State) : (accept .ige s).factOp = s.factOp := rfl
@[simp] theorem accept_ige_search (s : State) : (accept .ige s).search = s.search := rfl
@[simp] theorem accept_ige_igeSeen (s : State) : (accept .ige s).igeSeen = false := rfl
@[simp] theorem accept_ige_factSeen (s : State) : (accept .ige s).factSeen = s.factSeen := rfl
@[simp] theorem accept_ige_readData (s : State) : (accept .ige s).readData = s.readData := rfl
@[simp] theorem accept_ige_script (s : State) : (accept .ige s).script = s.script := rfl
@[simp] theorem accept_ige_turns (s : State) : (accept .ige s).turns = s.turns := rfl
@[simp] theorem accept_ige_draws (s : State) : (accept .ige s).draws = s.draws := rfl

/-! Acceptance by the FACT unit. -/

@[simp] theorem accept_fact_key (s : State) : (accept .fact s).key = s.key := rfl
@[simp] theorem accept_fact_iv (s : State) : (accept .fact s).iv = s.iv := rfl
@[simp] theorem accept_fact_len (s : State) : (accept .fact s).len = s.len := rfl
@[simp] theorem accept_fact_pq (s : State) : (accept .fact s).pq = s.pq := rfl
@[simp] theorem accept_fact_p (s : State) : (accept .fact s).p = s.p := rfl
@[simp] theorem accept_fact_q (s : State) : (accept .fact s).q = s.q := rfl
@[simp] theorem accept_fact_igeStatus (s : State) : (accept .fact s).igeStatus = s.igeStatus := rfl
@[simp] theorem accept_fact_factStatus (s : State) : (accept .fact s).factStatus = statusAccepted := rfl
@[simp] theorem accept_fact_ibuf (s : State) : (accept .fact s).ibuf = s.ibuf := rfl
@[simp] theorem accept_fact_obuf (s : State) : (accept .fact s).obuf = s.obuf := rfl
@[simp] theorem accept_fact_igeOp (s : State) : (accept .fact s).igeOp = s.igeOp := rfl
@[simp] theorem accept_fact_prevCipher (s : State) : (accept .fact s).prevCipher = s.prevCipher := rfl
@[simp] theorem accept_fact_prevPlain (s : State) : (accept .fact s).prevPlain = s.prevPlain := rfl
@[simp] theorem accept_fact_blk (s : State) : (accept .fact s).blk = s.blk := rfl
@[simp] theorem accept_fact_factOp (s : State) : (accept .fact s).factOp = s.factOp := rfl
@[simp] theorem accept_fact_search (s : State) : (accept .fact s).search = s.search := rfl
@[simp] theorem accept_fact_igeSeen (s : State) : (accept .fact s).igeSeen = s.igeSeen := rfl
@[simp] theorem accept_fact_factSeen (s : State) : (accept .fact s).factSeen = false := rfl
@[simp] theorem accept_fact_readData (s : State) : (accept .fact s).readData = s.readData := rfl
@[simp] theorem accept_fact_script (s : State) : (accept .fact s).script = s.script := rfl
@[simp] theorem accept_fact_turns (s : State) : (accept .fact s).turns = s.turns := rfl
@[simp] theorem accept_fact_draws (s : State) : (accept .fact s).draws = s.draws := rfl

/-! An error of the IGE unit. -/

@[simp] theorem raise_ige_key (e : ErrorKind) (s : State) : (raise .ige e s).key = s.key := rfl
@[simp] theorem raise_ige_iv (e : ErrorKind) (s : State) : (raise .ige e s).iv = s.iv := rfl
@[simp] theorem raise_ige_len (e : ErrorKind) (s : State) : (raise .ige e s).len = s.len := rfl
@[simp] theorem raise_ige_pq (e : ErrorKind) (s : State) : (raise .ige e s).pq = s.pq := rfl
@[simp] theorem raise_ige_p (e : ErrorKind) (s : State) : (raise .ige e s).p = s.p := rfl
@[simp] theorem raise_ige_q (e : ErrorKind) (s : State) : (raise .ige e s).q = s.q := rfl
@[simp] theorem raise_ige_igeStatus (e : ErrorKind) (s : State) : (raise .ige e s).igeStatus = statusFailed e := rfl
@[simp] theorem raise_ige_factStatus (e : ErrorKind) (s : State) : (raise .ige e s).factStatus = s.factStatus := rfl
@[simp] theorem raise_ige_ibuf (e : ErrorKind) (s : State) : (raise .ige e s).ibuf = s.ibuf := rfl
@[simp] theorem raise_ige_obuf (e : ErrorKind) (s : State) : (raise .ige e s).obuf = s.obuf := rfl
@[simp] theorem raise_ige_igeOp (e : ErrorKind) (s : State) : (raise .ige e s).igeOp = none := rfl
@[simp] theorem raise_ige_prevCipher (e : ErrorKind) (s : State) : (raise .ige e s).prevCipher = s.prevCipher := rfl
@[simp] theorem raise_ige_prevPlain (e : ErrorKind) (s : State) : (raise .ige e s).prevPlain = s.prevPlain := rfl
@[simp] theorem raise_ige_blk (e : ErrorKind) (s : State) : (raise .ige e s).blk = s.blk := rfl
@[simp] theorem raise_ige_factOp (e : ErrorKind) (s : State) : (raise .ige e s).factOp = s.factOp := rfl
@[simp] theorem raise_ige_search (e : ErrorKind) (s : State) : (raise .ige e s).search = s.search := rfl
@[simp] theorem raise_ige_igeSeen (e : ErrorKind) (s : State) : (raise .ige e s).igeSeen = s.igeSeen := rfl
@[simp] theorem raise_ige_factSeen (e : ErrorKind) (s : State) : (raise .ige e s).factSeen = s.factSeen := rfl
@[simp] theorem raise_ige_readData (e : ErrorKind) (s : State) : (raise .ige e s).readData = s.readData := rfl
@[simp] theorem raise_ige_script (e : ErrorKind) (s : State) : (raise .ige e s).script = s.script := rfl
@[simp] theorem raise_ige_turns (e : ErrorKind) (s : State) : (raise .ige e s).turns = s.turns := rfl
@[simp] theorem raise_ige_draws (e : ErrorKind) (s : State) : (raise .ige e s).draws = s.draws := rfl

/-! An error of the FACT unit. -/

@[simp] theorem raise_fact_key (e : ErrorKind) (s : State) : (raise .fact e s).key = s.key := rfl
@[simp] theorem raise_fact_iv (e : ErrorKind) (s : State) : (raise .fact e s).iv = s.iv := rfl
@[simp] theorem raise_fact_len (e : ErrorKind) (s : State) : (raise .fact e s).len = s.len := rfl
@[simp] theorem raise_fact_pq (e : ErrorKind) (s : State) : (raise .fact e s).pq = s.pq := rfl
@[simp] theorem raise_fact_p (e : ErrorKind) (s : State) : (raise .fact e s).p = s.p := rfl
@[simp] theorem raise_fact_q (e : ErrorKind) (s : State) : (raise .fact e s).q = s.q := rfl
@[simp] theorem raise_fact_igeStatus (e : ErrorKind) (s : State) : (raise .fact e s).igeStatus = s.igeStatus := rfl
@[simp] theorem raise_fact_factStatus (e : ErrorKind) (s : State) : (raise .fact e s).factStatus = statusFailed e := rfl
@[simp] theorem raise_fact_ibuf (e : ErrorKind) (s : State) : (raise .fact e s).ibuf = s.ibuf := rfl
@[simp] theorem raise_fact_obuf (e : ErrorKind) (s : State) : (raise .fact e s).obuf = s.obuf := rfl
@[simp] theorem raise_fact_igeOp (e : ErrorKind) (s : State) : (raise .fact e s).igeOp = s.igeOp := rfl
@[simp] theorem raise_fact_prevCipher (e : ErrorKind) (s : State) : (raise .fact e s).prevCipher = s.prevCipher := rfl
@[simp] theorem raise_fact_prevPlain (e : ErrorKind) (s : State) : (raise .fact e s).prevPlain = s.prevPlain := rfl
@[simp] theorem raise_fact_blk (e : ErrorKind) (s : State) : (raise .fact e s).blk = s.blk := rfl
@[simp] theorem raise_fact_factOp (e : ErrorKind) (s : State) : (raise .fact e s).factOp = none := rfl
@[simp] theorem raise_fact_search (e : ErrorKind) (s : State) : (raise .fact e s).search = s.search := rfl
@[simp] theorem raise_fact_igeSeen (e : ErrorKind) (s : State) : (raise .fact e s).igeSeen = s.igeSeen := rfl
@[simp] theorem raise_fact_factSeen (e : ErrorKind) (s : State) : (raise .fact e s).factSeen = s.factSeen := rfl
@[simp] theorem raise_fact_readData (e : ErrorKind) (s : State) : (raise .fact e s).readData = s.readData := rfl
@[simp] theorem raise_fact_script (e : ErrorKind) (s : State) : (raise .fact e s).script = s.script := rfl
@[simp] theorem raise_fact_turns (e : ErrorKind) (s : State) : (raise .fact e s).turns = s.turns := rfl
@[simp] theorem raise_fact_draws (e : ErrorKind) (s : State) : (raise .fact e s).draws = s.draws := rfl

/-! Completion of the IGE unit. -/

@[simp] theorem complete_ige_key (s : State) : (complete .ige s).key = s.key := rfl
@[simp] theorem complete_ige_iv (s : State) : (complete .ige s).iv = s.iv := rfl
@[simp] theorem complete_ige_len (s : State) : (complete .ige s).len = s.len := rfl
@[simp] theorem complete_ige_pq (s : State) : (complete .ige s).pq = s.pq := rfl
@[simp] theorem complete_ige_p (s : State) : (complete .ige s).p = s.p := rfl
@[simp] theorem complete_ige_q (s : State) : (complete .ige s).q = s.q := rfl
@[simp] theorem complete_ige_igeStatus (s : State) : (complete .ige s).igeStatus = statusSuccess := rfl
@[simp] theorem complete_ige_factStatus (s : State) : (complete .ige s).factStatus = s.factStatus := rfl
@[simp] theorem complete_ige_ibuf (s : State) : (complete .ige s).ibuf = s.ibuf := rfl
@[simp] theorem complete_ige_obuf (s : State) : (complete .ige s).obuf = s.obuf := rfl
@[simp] theorem complete_ige_igeOp (s : State) : (complete .ige s).igeOp = none := rfl
@[simp] theorem complete_ige_prevCipher (s : State) : (complete .ige s).prevCipher = s.prevCipher := rfl
@[simp] theorem complete_ige_prevPlain (s : State) : (complete .ige s).prevPlain = s.prevPlain := rfl
@[simp] theorem complete_ige_blk (s : State) : (complete .ige s).blk = s.blk := rfl
@[simp] theorem complete_ige_factOp (s : State) : (complete .ige s).factOp = s.factOp := rfl
@[simp] theorem complete_ige_search (s : State) : (complete .ige s).search = s.search := rfl
@[simp] theorem complete_ige_igeSeen (s : State) : (complete .ige s).igeSeen = s.igeSeen := rfl
@[simp] theorem complete_ige_factSeen (s : State) : (complete .ige s).factSeen = s.factSeen := rfl
@[simp] theorem complete_ige_readData (s : State) : (complete .ige s).readData = s.readData := rfl
@[simp] theorem complete_ige_script (s : State) : (complete .ige s).script = s.script := rfl
@[simp] theorem complete_ige_turns (s : State) : (complete .ige s).turns = s.turns := rfl
@[simp] theorem complete_ige_draws (s : State) : (complete .ige s).draws = s.draws := rfl

/-! Completion of the FACT unit. -/

@[simp] theorem complete_fact_key (s : State) : (complete .fact s).key = s.key := rfl
@[simp] theorem complete_fact_iv (s : State) : (complete .fact s).iv = s.iv := rfl
@[simp] theorem complete_fact_len (s : State) : (complete .fact s).len = s.len := rfl
@[simp] theorem complete_fact_pq (s : State) : (complete .fact s).pq = s.pq := rfl
@[simp] theorem complete_fact_p (s : State) : (complete .fact s).p = s.p := rfl
@[simp] theorem complete_fact_q (s : State) : (complete .fact s).q = s.q := rfl
@[simp] theorem complete_fact_igeStatus (s : State) : (complete .fact s).igeStatus = s.igeStatus := rfl
@[simp] theorem complete_fact_factStatus (s : State) : (complete .fact s).factStatus = statusSuccess := rfl
@[simp] theorem complete_fact_ibuf (s : State) : (complete .fact s).ibuf = s.ibuf := rfl
@[simp] theorem complete_fact_obuf (s : State) : (complete .fact s).obuf = s.obuf := rfl
@[simp] theorem complete_fact_igeOp (s : State) : (complete .fact s).igeOp = s.igeOp := rfl
@[simp] theorem complete_fact_prevCipher (s : State) : (complete .fact s).prevCipher = s.prevCipher := rfl
@[simp] theorem complete_fact_prevPlain (s : State) : (complete .fact s).prevPlain = s.prevPlain := rfl
@[simp] theorem complete_fact_blk (s : State) : (complete .fact s).blk = s.blk := rfl
@[simp] theorem complete_fact_factOp (s : State) : (complete .fact s).factOp = none := rfl
@[simp] theorem complete_fact_search (s : State) : (complete .fact s).search = s.search := rfl
@[simp] theorem complete_fact_igeSeen (s : State) : (complete .fact s).igeSeen = s.igeSeen := rfl
@[simp] theorem complete_fact_factSeen (s : State) : (complete .fact s).factSeen = s.factSeen := rfl
@[simp] theorem complete_fact_readData (s : State) : (complete .fact s).readData = s.readData := rfl
@[simp] theorem complete_fact_script (s : State) : (complete .fact s).script = s.script := rfl
@[simp] theorem complete_fact_turns (s : State) : (complete .fact s).turns = s.turns := rfl
@[simp] theorem complete_fact_draws (s : State) : (complete .fact s).draws = s.draws := rfl

/-! Completion with a pair. -/

@[simp] theorem completeWithPair_key (a b : Nat) (s : State) : (completeWithPair a b s).key = s.key := rfl
@[simp] theorem completeWithPair_iv (a b : Nat) (s : State) : (completeWithPair a b s).iv = s.iv := rfl
@[simp] theorem completeWithPair_len (a b : Nat) (s : State) : (completeWithPair a b s).len = s.len := rfl
@[simp] theorem completeWithPair_pq (a b : Nat) (s : State) : (completeWithPair a b s).pq = s.pq := rfl
@[simp] theorem completeWithPair_p (a b : Nat) (s : State) : (completeWithPair a b s).p = ⟨BitVec.ofNat 64 a, true⟩ := rfl
@[simp] theorem completeWithPair_q (a b : Nat) (s : State) : (completeWithPair a b s).q = ⟨BitVec.ofNat 64 b, true⟩ := rfl
@[simp] theorem completeWithPair_igeStatus (a b : Nat) (s : State) : (completeWithPair a b s).igeStatus = s.igeStatus := rfl
@[simp] theorem completeWithPair_factStatus (a b : Nat) (s : State) : (completeWithPair a b s).factStatus = statusSuccess := rfl
@[simp] theorem completeWithPair_ibuf (a b : Nat) (s : State) : (completeWithPair a b s).ibuf = s.ibuf := rfl
@[simp] theorem completeWithPair_obuf (a b : Nat) (s : State) : (completeWithPair a b s).obuf = s.obuf := rfl
@[simp] theorem completeWithPair_igeOp (a b : Nat) (s : State) : (completeWithPair a b s).igeOp = s.igeOp := rfl
@[simp] theorem completeWithPair_prevCipher (a b : Nat) (s : State) : (completeWithPair a b s).prevCipher = s.prevCipher := rfl
@[simp] theorem completeWithPair_prevPlain (a b : Nat) (s : State) : (completeWithPair a b s).prevPlain = s.prevPlain := rfl
@[simp] theorem completeWithPair_blk (a b : Nat) (s : State) : (completeWithPair a b s).blk = s.blk := rfl
@[simp] theorem completeWithPair_factOp (a b : Nat) (s : State) : (completeWithPair a b s).factOp = none := rfl
@[simp] theorem completeWithPair_search (a b : Nat) (s : State) : (completeWithPair a b s).search = s.search := rfl
@[simp] theorem completeWithPair_igeSeen (a b : Nat) (s : State) : (completeWithPair a b s).igeSeen = s.igeSeen := rfl
@[simp] theorem completeWithPair_factSeen (a b : Nat) (s : State) : (completeWithPair a b s).factSeen = s.factSeen := rfl
@[simp] theorem completeWithPair_readData (a b : Nat) (s : State) : (completeWithPair a b s).readData = s.readData := rfl
@[simp] theorem completeWithPair_script (a b : Nat) (s : State) : (completeWithPair a b s).script = s.script := rfl
@[simp] theorem completeWithPair_turns (a b : Nat) (s : State) : (completeWithPair a b s).turns = s.turns := rfl
@[simp] theorem completeWithPair_draws (a b : Nat) (s : State) : (completeWithPair a b s).draws = s.draws := rfl

/-! The end of a block step. -/

@[simp] theorem emitBlock_key (o c d : Block) (s : State) : (emitBlock o c d s).key = s.key := rfl
@[simp] theorem emitBlock_iv (o c d : Block) (s : State) : (emitBlock o c d s).iv = s.iv := rfl
@[simp] theorem emitBlock_len (o c d : Block) (s : State) : (emitBlock o c d s).len = s.len := rfl
@[simp] theorem emitBlock_pq (o c d : Block) (s : State) : (emitBlock o c d s).pq = s.pq := rfl
@[simp] theorem emitBlock_p (o c d : Block) (s : State) : (emitBlock o c d s).p = s.p := rfl
@[simp] theorem emitBlock_q (o c d : Block) (s : State) : (emitBlock o c d s).q = s.q := rfl
@[simp] theorem emitBlock_igeStatus (o c d : Block) (s : State) : (emitBlock o c d s).igeStatus = s.igeStatus := rfl
@[simp] theorem emitBlock_factStatus (o c d : Block) (s : State) : (emitBlock o c d s).factStatus = s.factStatus := rfl
@[simp] theorem emitBlock_ibuf (o c d : Block) (s : State) : (emitBlock o c d s).ibuf = s.ibuf := rfl
@[simp] theorem emitBlock_obuf (o c d : Block) (s : State) : (emitBlock o c d s).obuf = s.obuf.writeBlock (16 * s.blk) o := rfl
@[simp] theorem emitBlock_igeOp (o c d : Block) (s : State) : (emitBlock o c d s).igeOp = s.igeOp := rfl
@[simp] theorem emitBlock_prevCipher (o c d : Block) (s : State) : (emitBlock o c d s).prevCipher = c := rfl
@[simp] theorem emitBlock_prevPlain (o c d : Block) (s : State) : (emitBlock o c d s).prevPlain = d := rfl
@[simp] theorem emitBlock_blk (o c d : Block) (s : State) : (emitBlock o c d s).blk = s.blk + 1 := rfl
@[simp] theorem emitBlock_factOp (o c d : Block) (s : State) : (emitBlock o c d s).factOp = s.factOp := rfl
@[simp] theorem emitBlock_search (o c d : Block) (s : State) : (emitBlock o c d s).search = s.search := rfl
@[simp] theorem emitBlock_igeSeen (o c d : Block) (s : State) : (emitBlock o c d s).igeSeen = s.igeSeen := rfl
@[simp] theorem emitBlock_factSeen (o c d : Block) (s : State) : (emitBlock o c d s).factSeen = s.factSeen := rfl
@[simp] theorem emitBlock_readData (o c d : Block) (s : State) : (emitBlock o c d s).readData = s.readData := rfl
@[simp] theorem emitBlock_script (o c d : Block) (s : State) : (emitBlock o c d s).script = s.script := rfl
@[simp] theorem emitBlock_turns (o c d : Block) (s : State) : (emitBlock o c d s).turns = s.turns := rfl
@[simp] theorem emitBlock_draws (o c d : Block) (s : State) : (emitBlock o c d s).draws = s.draws := rfl

/-! A read of IGE_STATUS. -/

@[simp] theorem readStatus_ige_key (s : State) : (readStatus .ige s).key = s.key := rfl
@[simp] theorem readStatus_ige_iv (s : State) : (readStatus .ige s).iv = s.iv := rfl
@[simp] theorem readStatus_ige_len (s : State) : (readStatus .ige s).len = s.len := rfl
@[simp] theorem readStatus_ige_pq (s : State) : (readStatus .ige s).pq = s.pq := rfl
@[simp] theorem readStatus_ige_p (s : State) : (readStatus .ige s).p = s.p := rfl
@[simp] theorem readStatus_ige_q (s : State) : (readStatus .ige s).q = s.q := rfl
@[simp] theorem readStatus_ige_igeStatus (s : State) : (readStatus .ige s).igeStatus = s.igeStatus := rfl
@[simp] theorem readStatus_ige_factStatus (s : State) : (readStatus .ige s).factStatus = s.factStatus := rfl
@[simp] theorem readStatus_ige_ibuf (s : State) : (readStatus .ige s).ibuf = s.ibuf := rfl
@[simp] theorem readStatus_ige_obuf (s : State) : (readStatus .ige s).obuf = s.obuf := rfl
@[simp] theorem readStatus_ige_igeOp (s : State) : (readStatus .ige s).igeOp = s.igeOp := rfl
@[simp] theorem readStatus_ige_prevCipher (s : State) : (readStatus .ige s).prevCipher = s.prevCipher := rfl
@[simp] theorem readStatus_ige_prevPlain (s : State) : (readStatus .ige s).prevPlain = s.prevPlain := rfl
@[simp] theorem readStatus_ige_blk (s : State) : (readStatus .ige s).blk = s.blk := rfl
@[simp] theorem readStatus_ige_factOp (s : State) : (readStatus .ige s).factOp = s.factOp := rfl
@[simp] theorem readStatus_ige_search (s : State) : (readStatus .ige s).search = s.search := rfl
@[simp] theorem readStatus_ige_igeSeen (s : State) : (readStatus .ige s).igeSeen = (s.igeSeen || statusIsSuccess s.igeStatus) := rfl
@[simp] theorem readStatus_ige_factSeen (s : State) : (readStatus .ige s).factSeen = s.factSeen := rfl
@[simp] theorem readStatus_ige_readData (s : State) : (readStatus .ige s).readData = some (.status s.igeStatus) := rfl
@[simp] theorem readStatus_ige_script (s : State) : (readStatus .ige s).script = s.script := rfl
@[simp] theorem readStatus_ige_turns (s : State) : (readStatus .ige s).turns = s.turns := rfl
@[simp] theorem readStatus_ige_draws (s : State) : (readStatus .ige s).draws = s.draws := rfl

/-! A read of FACT_STATUS. -/

@[simp] theorem readStatus_fact_key (s : State) : (readStatus .fact s).key = s.key := rfl
@[simp] theorem readStatus_fact_iv (s : State) : (readStatus .fact s).iv = s.iv := rfl
@[simp] theorem readStatus_fact_len (s : State) : (readStatus .fact s).len = s.len := rfl
@[simp] theorem readStatus_fact_pq (s : State) : (readStatus .fact s).pq = s.pq := rfl
@[simp] theorem readStatus_fact_p (s : State) : (readStatus .fact s).p = s.p := rfl
@[simp] theorem readStatus_fact_q (s : State) : (readStatus .fact s).q = s.q := rfl
@[simp] theorem readStatus_fact_igeStatus (s : State) : (readStatus .fact s).igeStatus = s.igeStatus := rfl
@[simp] theorem readStatus_fact_factStatus (s : State) : (readStatus .fact s).factStatus = s.factStatus := rfl
@[simp] theorem readStatus_fact_ibuf (s : State) : (readStatus .fact s).ibuf = s.ibuf := rfl
@[simp] theorem readStatus_fact_obuf (s : State) : (readStatus .fact s).obuf = s.obuf := rfl
@[simp] theorem readStatus_fact_igeOp (s : State) : (readStatus .fact s).igeOp = s.igeOp := rfl
@[simp] theorem readStatus_fact_prevCipher (s : State) : (readStatus .fact s).prevCipher = s.prevCipher := rfl
@[simp] theorem readStatus_fact_prevPlain (s : State) : (readStatus .fact s).prevPlain = s.prevPlain := rfl
@[simp] theorem readStatus_fact_blk (s : State) : (readStatus .fact s).blk = s.blk := rfl
@[simp] theorem readStatus_fact_factOp (s : State) : (readStatus .fact s).factOp = s.factOp := rfl
@[simp] theorem readStatus_fact_search (s : State) : (readStatus .fact s).search = s.search := rfl
@[simp] theorem readStatus_fact_igeSeen (s : State) : (readStatus .fact s).igeSeen = s.igeSeen := rfl
@[simp] theorem readStatus_fact_factSeen (s : State) : (readStatus .fact s).factSeen = (s.factSeen || statusIsSuccess s.factStatus) := rfl
@[simp] theorem readStatus_fact_readData (s : State) : (readStatus .fact s).readData = some (.status s.factStatus) := rfl
@[simp] theorem readStatus_fact_script (s : State) : (readStatus .fact s).script = s.script := rfl
@[simp] theorem readStatus_fact_turns (s : State) : (readStatus .fact s).turns = s.turns := rfl
@[simp] theorem readStatus_fact_draws (s : State) : (readStatus .fact s).draws = s.draws := rfl

/-! A command word placed before the next step. -/

@[simp] theorem withFetchWord_key (s : State) (n w : Nat) : (s.withFetchWord n w).key = s.key := rfl
@[simp] theorem withFetchWord_iv (s : State) (n w : Nat) : (s.withFetchWord n w).iv = s.iv := rfl
@[simp] theorem withFetchWord_len (s : State) (n w : Nat) : (s.withFetchWord n w).len = s.len := rfl
@[simp] theorem withFetchWord_pq (s : State) (n w : Nat) : (s.withFetchWord n w).pq = s.pq := rfl
@[simp] theorem withFetchWord_p (s : State) (n w : Nat) : (s.withFetchWord n w).p = s.p := rfl
@[simp] theorem withFetchWord_q (s : State) (n w : Nat) : (s.withFetchWord n w).q = s.q := rfl
@[simp] theorem withFetchWord_igeStatus (s : State) (n w : Nat) : (s.withFetchWord n w).igeStatus = s.igeStatus := rfl
@[simp] theorem withFetchWord_factStatus (s : State) (n w : Nat) :
    (s.withFetchWord n w).factStatus = s.factStatus := rfl
@[simp] theorem withFetchWord_ibuf (s : State) (n w : Nat) : (s.withFetchWord n w).ibuf = s.ibuf := rfl
@[simp] theorem withFetchWord_obuf (s : State) (n w : Nat) : (s.withFetchWord n w).obuf = s.obuf := rfl
@[simp] theorem withFetchWord_igeOp (s : State) (n w : Nat) : (s.withFetchWord n w).igeOp = s.igeOp := rfl
@[simp] theorem withFetchWord_prevCipher (s : State) (n w : Nat) :
    (s.withFetchWord n w).prevCipher = s.prevCipher := rfl
@[simp] theorem withFetchWord_prevPlain (s : State) (n w : Nat) : (s.withFetchWord n w).prevPlain = s.prevPlain := rfl
@[simp] theorem withFetchWord_blk (s : State) (n w : Nat) : (s.withFetchWord n w).blk = s.blk := rfl
@[simp] theorem withFetchWord_factOp (s : State) (n w : Nat) : (s.withFetchWord n w).factOp = s.factOp := rfl
@[simp] theorem withFetchWord_search (s : State) (n w : Nat) : (s.withFetchWord n w).search = s.search := rfl
@[simp] theorem withFetchWord_igeSeen (s : State) (n w : Nat) : (s.withFetchWord n w).igeSeen = s.igeSeen := rfl
@[simp] theorem withFetchWord_factSeen (s : State) (n w : Nat) : (s.withFetchWord n w).factSeen = s.factSeen := rfl
@[simp] theorem withFetchWord_readData (s : State) (n w : Nat) : (s.withFetchWord n w).readData = s.readData := rfl
@[simp] theorem withFetchWord_script (s : State) (n w : Nat) :
    (s.withFetchWord n w).script = .wrCmd (BitVec.ofNat 8 w) :: s.script := rfl
@[simp] theorem withFetchWord_turns (s : State) (n w : Nat) : (s.withFetchWord n w).turns = .host :: s.turns := rfl
@[simp] theorem withFetchWord_draws (s : State) (n w : Nat) : (s.withFetchWord n w).draws = s.draws := rfl

/-! The reset event. -/

@[simp] theorem resetEvent_key (s : State) : (resetEvent s).key = State.reset.key := rfl
@[simp] theorem resetEvent_iv (s : State) : (resetEvent s).iv = State.reset.iv := rfl
@[simp] theorem resetEvent_len (s : State) : (resetEvent s).len = State.reset.len := rfl
@[simp] theorem resetEvent_pq (s : State) : (resetEvent s).pq = State.reset.pq := rfl
@[simp] theorem resetEvent_p (s : State) : (resetEvent s).p = State.reset.p := rfl
@[simp] theorem resetEvent_q (s : State) : (resetEvent s).q = State.reset.q := rfl
@[simp] theorem resetEvent_igeStatus (s : State) : (resetEvent s).igeStatus = State.reset.igeStatus := rfl
@[simp] theorem resetEvent_factStatus (s : State) : (resetEvent s).factStatus = State.reset.factStatus := rfl
@[simp] theorem resetEvent_ibuf (s : State) : (resetEvent s).ibuf = State.reset.ibuf := rfl
@[simp] theorem resetEvent_obuf (s : State) : (resetEvent s).obuf = State.reset.obuf := rfl
@[simp] theorem resetEvent_igeOp (s : State) : (resetEvent s).igeOp = State.reset.igeOp := rfl
@[simp] theorem resetEvent_prevCipher (s : State) : (resetEvent s).prevCipher = State.reset.prevCipher := rfl
@[simp] theorem resetEvent_prevPlain (s : State) : (resetEvent s).prevPlain = State.reset.prevPlain := rfl
@[simp] theorem resetEvent_blk (s : State) : (resetEvent s).blk = State.reset.blk := rfl
@[simp] theorem resetEvent_factOp (s : State) : (resetEvent s).factOp = State.reset.factOp := rfl
@[simp] theorem resetEvent_search (s : State) : (resetEvent s).search = State.reset.search := rfl
@[simp] theorem resetEvent_igeSeen (s : State) : (resetEvent s).igeSeen = State.reset.igeSeen := rfl
@[simp] theorem resetEvent_factSeen (s : State) : (resetEvent s).factSeen = State.reset.factSeen := rfl
@[simp] theorem resetEvent_readData (s : State) : (resetEvent s).readData = s.readData := rfl
@[simp] theorem resetEvent_script (s : State) : (resetEvent s).script = s.script := rfl
@[simp] theorem resetEvent_turns (s : State) : (resetEvent s).turns = s.turns := rfl
@[simp] theorem resetEvent_draws (s : State) : (resetEvent s).draws = s.draws := rfl

end Sys2Proof.Machine
end

