-- ==== Sys2Proof/Laws/Ige.lean ====
section
/-! SUPPORT. What acceptance and a step of the IGE unit can do, said once, and the basic laws of the two
recurrences. -/

namespace Sys2Proof.Machine

/-! Conditions. -/

theorem aligned_iff (n : Nat) : aligned n = true ↔ n % 16 = 0 := by simp [aligned]

theorem aligned_eq_false (n : Nat) : aligned n = false ↔ n % 16 ≠ 0 := by simp [aligned]

theorem blockCount_of_aligned {n : Nat} (h : aligned n = true) : 16 * blockCount n = n := by
  have := (aligned_iff n).1 h; unfold blockCount; omega

@[simp] theorem fitsBuffer_zero (cfg : Config) : fitsBuffer cfg 0 = true := rfl

theorem fitsBuffer_iff (cfg : Config) (n : Nat) :
    fitsBuffer cfg n = true ↔ ∀ c, cfg.bufBytes = some c → n ≤ c := by
  cases n with
  | zero => simp
  | succ n =>
    unfold fitsBuffer
    cases h : cfg.bufBytes <;> simp

theorem addressesExist_iff (cfg : Config) (a n : Nat) :
    addressesExist cfg a n = true ↔ n = 0 ∨ ∀ c, cfg.bufBytes = some c → a + n ≤ c := by
  simp [addressesExist, fitsBuffer_iff]

theorem igeReady_iff (cfg : Config) (s : State) :
    igeReady cfg s = true ↔
      statusBusy s.igeStatus = false ∧
        (aligned s.len.value = true →
          fitsBuffer cfg s.len.value = true ∧ s.ibuf.hasBytes 0 s.len.value = true) := by
  unfold igeReady
  cases aligned s.len.value <;> simp

theorem factReady_iff (s : State) :
    factReady s = true ↔ statusBusy s.factStatus = false := by
  simp [factReady]

/-! The status words. -/

theorem statusAccepted_eq : statusAccepted = 0x01 := by decide
theorem statusSuccess_eq : statusSuccess = 0x02 := by decide
theorem statusFailed_malformed : statusFailed .malformedInput = 0x06 := by decide
theorem statusFailed_invalid : statusFailed .invalidInput = 0x0A := by decide
theorem statusFailed_failed : statusFailed .factorizationFailed = 0x0E := by decide

@[simp] theorem statusBusy_accepted : statusBusy statusAccepted = true := by decide
@[simp] theorem statusBusy_success : statusBusy statusSuccess = false := by decide
@[simp] theorem statusBusy_failed (e : ErrorKind) : statusBusy (statusFailed e) = false := by cases e <;> decide
@[simp] theorem statusDone_accepted : statusDone statusAccepted = false := by decide
@[simp] theorem statusDone_success : statusDone statusSuccess = true := by decide
@[simp] theorem statusDone_failed (e : ErrorKind) : statusDone (statusFailed e) = true := by cases e <;> decide
@[simp] theorem statusIsSuccess_success : statusIsSuccess statusSuccess = true := by decide
@[simp] theorem statusIsSuccess_failed (e : ErrorKind) : statusIsSuccess (statusFailed e) = false := by
  cases e <;> decide
@[simp] theorem statusIsSuccess_accepted : statusIsSuccess statusAccepted = false := by decide

@[simp] theorem igeStatusLegal_accepted : igeStatusLegal statusAccepted = true := by decide
@[simp] theorem igeStatusLegal_success : igeStatusLegal statusSuccess = true := by decide
@[simp] theorem igeStatusLegal_malformed : igeStatusLegal (statusFailed .malformedInput) = true := by decide
@[simp] theorem factStatusLegal_accepted : factStatusLegal statusAccepted = true := by decide
@[simp] theorem factStatusLegal_success : factStatusLegal statusSuccess = true := by decide
@[simp] theorem factStatusLegal_invalid : factStatusLegal (statusFailed .invalidInput) = true := by decide
@[simp] theorem factStatusLegal_failed : factStatusLegal (statusFailed .factorizationFailed) = true := by decide
@[simp] theorem statusFailed_ne_success (e : ErrorKind) : statusFailed e ≠ statusSuccess := by cases e <;> decide

/-! Acceptance. -/

/-- A ready IGE command is accepted. -/
theorem acceptIge_of_ready {cfg : Config} {s : State} (c : IgeCommand) (h : igeReady cfg s = true) :
    acceptIge cfg c s = .next (startIge c s) := by
  obtain ⟨h1, h2⟩ := (igeReady_iff cfg s).1 h
  unfold acceptIge
  cases ha : aligned s.len.value
  · simp [h1]
  · obtain ⟨h3, h4⟩ := h2 ha
    simp [h1, h3, h4]

/-- An IGE command is accepted only when it is ready, and acceptance is the start of the operation. -/
theorem acceptIge_next {cfg : Config} {c : IgeCommand} {s t : State} (h : acceptIge cfg c s = .next t) :
    igeReady cfg s = true ∧ t = startIge c s := by
  unfold acceptIge at h
  rw [igeReady_iff]
  repeat' split at h
  all_goals simp_all

theorem startIge_aligned {c : IgeCommand} {s : State} (h : aligned s.len.value = true) :
    startIge c s =
      { s with
        igeStatus := statusAccepted, igeSeen := false, igeOp := some c,
        prevCipher := ivFirst s.iv.value, prevPlain := ivLast s.iv.value, blk := 0 } := by
  unfold startIge
  simp only [accept_ige_len, h, if_true]
  rfl

theorem startIge_misaligned {c : IgeCommand} {s : State} (h : aligned s.len.value = false) :
    startIge c s = { s with igeStatus := statusAccepted, igeSeen := false, igeOp := some c } := by
  unfold startIge
  simp only [accept_ige_len, h]
  rfl

/-- Acceptance of an IGE command writes the unit's status and working registers and nothing else. -/
theorem startIge_frame (c : IgeCommand) (s : State) :
    startIge c s =
      { s with
        igeStatus := statusAccepted, igeSeen := false, igeOp := some c,
        prevCipher := (startIge c s).prevCipher, prevPlain := (startIge c s).prevPlain,
        blk := (startIge c s).blk } := by
  cases h : aligned s.len.value
  · rw [startIge_misaligned h]
  · rw [startIge_aligned h]

/-! A step of the unit. -/

/-- What a block step writes. -/
theorem blockStep_eq (cfg : Config) (c : IgeCommand) (input : Block) (s : State) :
    ∃ out nc np, blockStep cfg c input s = emitBlock out nc np s := by
  cases c
  · exact ⟨_, _, _, rfl⟩
  · exact ⟨_, _, _, rfl⟩

/-- A block step writes `OBUF` and the working registers. -/
theorem blockStep_frame (cfg : Config) (c : IgeCommand) (input : Block) (s : State) :
    blockStep cfg c input s =
      { s with
        obuf := (blockStep cfg c input s).obuf, prevCipher := (blockStep cfg c input s).prevCipher,
        prevPlain := (blockStep cfg c input s).prevPlain, blk := s.blk + 1 } := by
  obtain ⟨_, _, _, h⟩ := blockStep_eq cfg c input s
  rw [h]; rfl

/-- Everything a step of the IGE unit can do. -/
theorem igeUnitStep_cases {cfg : Config} {s t : State} (h : igeUnitStep cfg s = .next t) :
    (s.igeOp = none ∧ t = s) ∨
    ∃ c, s.igeOp = some c ∧
      ((aligned s.len.value = false ∧ t = raise .ige .malformedInput s) ∨
       (aligned s.len.value = true ∧ s.blk < blockCount s.len.value ∧
          ∃ input, inputBlock s s.blk = some input ∧ t = blockStep cfg c input s) ∨
       (aligned s.len.value = true ∧ blockCount s.len.value ≤ s.blk ∧ t = complete .ige s)) := by
  unfold igeUnitStep at h
  split at h
  · rename_i h0; left; exact ⟨h0, by simpa using h.symm⟩
  · rename_i c h0
    refine Or.inr ⟨c, h0, ?_⟩
    cases ha : aligned s.len.value
    · simp [ha] at h; exact Or.inl ⟨rfl, h.symm⟩
    · simp only [ha, Bool.not_true, Bool.false_eq_true, if_false] at h
      split at h
      · rename_i hb
        split at h
        · rename_i input hi
          exact Or.inr (Or.inl ⟨rfl, hb, input, hi, by simpa using h.symm⟩)
        · simp at h
      · rename_i hb
        exact Or.inr (Or.inr ⟨rfl, by omega, by simpa using h.symm⟩)

theorem igeUnitStep_block {cfg : Config} {s : State} {c : IgeCommand} {input : Block} (h0 : s.igeOp = some c)
    (ha : aligned s.len.value = true) (hb : s.blk < blockCount s.len.value)
    (hi : inputBlock s s.blk = some input) : igeUnitStep cfg s = .next (blockStep cfg c input s) := by
  simp [igeUnitStep, h0, ha, hb, hi]

theorem igeUnitStep_complete {cfg : Config} {s : State} {c : IgeCommand} (h0 : s.igeOp = some c)
    (ha : aligned s.len.value = true) (hb : blockCount s.len.value ≤ s.blk) :
    igeUnitStep cfg s = .next (complete .ige s) := by
  simp [igeUnitStep, h0, ha, Nat.not_lt.2 hb]

theorem igeUnitStep_raise {cfg : Config} {s : State} {c : IgeCommand} (h0 : s.igeOp = some c)
    (ha : aligned s.len.value = false) : igeUnitStep cfg s = .next (raise .ige .malformedInput s) := by
  simp [igeUnitStep, h0, ha]

/-! The recurrences. -/

@[simp] theorem encryptBlocks_nil (e : Block → Block) (a b : Block) : encryptBlocks e a b [] = [] := rfl

@[simp] theorem decryptBlocks_nil (d : Block → Block) (a b : Block) : decryptBlocks d a b [] = [] := rfl

theorem encryptBlocks_cons (e : Block → Block) (a b m : Block) (l : List Block) :
    encryptBlocks e a b (m :: l) = encryptBlock e a b m :: encryptBlocks e (encryptBlock e a b m) m l := rfl

theorem decryptBlocks_cons (d : Block → Block) (a b z : Block) (l : List Block) :
    decryptBlocks d a b (z :: l) = decryptBlock d a b z :: decryptBlocks d z (decryptBlock d a b z) l := rfl

/-- One block: decryption undoes encryption under the same chaining values. -/
theorem decryptBlock_encryptBlock (cfg : Config) (k : Key) (a b m : Block) :
    decryptBlock (cfg.blockDecrypt k) a b (encryptBlock (cfg.blockEncrypt k) a b m) = m := by
  simp [decryptBlock, encryptBlock]

/-- One block: encryption undoes decryption under the same chaining values. -/
theorem encryptBlock_decryptBlock (cfg : Config) (k : Key) (a b z : Block) :
    encryptBlock (cfg.blockEncrypt k) a b (decryptBlock (cfg.blockDecrypt k) a b z) = z := by
  simp [decryptBlock, encryptBlock]

end Sys2Proof.Machine
end

