-- ==== Sys2Proof/Laws/Factor.lean ====
section
/-! SUPPORT. What acceptance and a step of the FACT unit can do, said once, case by case, and the defining equations
of the command read as a whole. -/

namespace Sys2Proof.Machine

/-! Acceptance. -/

/-- A ready factorization is accepted. -/
theorem acceptFact_of_ready {cfg : Config} {s : State} (h : factReady s = true) :
    acceptFact cfg s = .next (startFact cfg s) := by
  simp [acceptFact, (factReady_iff s).1 h]

/-- A factorization is accepted only when it is ready, and acceptance is the start of the operation. -/
theorem acceptFact_next {cfg : Config} {s t : State} (h : acceptFact cfg s = .next t) :
    factReady s = true ∧ t = startFact cfg s := by
  unfold acceptFact at h
  rw [factReady_iff]
  repeat' split at h
  all_goals simp_all

theorem startFact_direct {cfg : Config} {s : State} (h : s.pq.value.toNat < 2 ∨ s.pq.value.toNat % 2 = 0) :
    startFact cfg s = { s with factStatus := statusAccepted, factSeen := false, factOp := some .direct } :=
  if_pos h

theorem startFact_search {cfg : Config} {s : State} (h : ¬(s.pq.value.toNat < 2 ∨ s.pq.value.toNat % 2 = 0)) :
    startFact cfg s =
      { s with
        factStatus := statusAccepted, factSeen := false, factOp := some .batch,
        search := startSearch cfg s.pq.value.toNat s.search } :=
  if_neg h

/-- Acceptance of a factorization writes the unit's status and working registers and nothing else. -/
theorem startFact_frame (cfg : Config) (s : State) :
    startFact cfg s =
      { s with
        factStatus := statusAccepted, factSeen := false, factOp := (startFact cfg s).factOp,
        search := (startFact cfg s).search } := by
  by_cases h : s.pq.value.toNat < 2 ∨ s.pq.value.toNat % 2 = 0
  · rw [startFact_direct h]
  · rw [startFact_search h]

/-! A step of the unit. -/

theorem factUnitStep_idle {cfg : Config} {s : State} (h : s.factOp = none) : factUnitStep cfg s = s := by
  simp [factUnitStep, h]

theorem factUnitStep_direct {cfg : Config} {s : State} (h : s.factOp = some .direct) :
    factUnitStep cfg s = directStep s := by simp [factUnitStep, h]

theorem factUnitStep_batch {cfg : Config} {s : State} (h : s.factOp = some .batch) :
    factUnitStep cfg s =
      { s with factOp := some (batchStep cfg s.search).1, search := (batchStep cfg s.search).2 } := by
  simp [factUnitStep, h]

theorem factUnitStep_replay {cfg : Config} {s : State} (h : s.factOp = some .replay) :
    factUnitStep cfg s =
      { s with factOp := some (replayStep cfg s.search).1, search := (replayStep cfg s.search).2 } := by
  simp [factUnitStep, h]

theorem factUnitStep_found {cfg : Config} {s : State} (h : s.factOp = some .found) :
    factUnitStep cfg s = foundStep s := by simp [factUnitStep, h]

theorem factUnitStep_exhausted {cfg : Config} {s : State} (h : s.factOp = some .exhausted) :
    factUnitStep cfg s = raise .fact .factorizationFailed s := by simp [factUnitStep, h]

theorem directStep_below {s : State} (h : s.pq.value.toNat < 2) : directStep s = raise .fact .invalidInput s := by
  simp [directStep, h]

theorem directStep_even {s : State} (h : ¬s.pq.value.toNat < 2) :
    directStep s = completeWithPair 2 (s.pq.value.toNat / 2) s := by simp [directStep, h]

/-- Everything a step of the FACT unit can do: nothing when idle, an error, a completion with a pair, or a move of
the search. -/
theorem factUnitStep_cases (cfg : Config) (s : State) :
    (s.factOp = none ∧ factUnitStep cfg s = s) ∨
    (∃ ph, s.factOp = some ph ∧
      ((∃ e, (e = .invalidInput ∨ e = .factorizationFailed) ∧ factUnitStep cfg s = raise .fact e s) ∨
       (∃ a b, factUnitStep cfg s = completeWithPair a b s) ∨
       ∃ ph' r, factUnitStep cfg s = { s with factOp := some ph', search := r })) := by
  cases h : s.factOp with
  | none => exact Or.inl ⟨rfl, factUnitStep_idle h⟩
  | some ph =>
    refine Or.inr ⟨ph, rfl, ?_⟩
    cases ph with
    | direct =>
      by_cases h2 : s.pq.value.toNat < 2
      · exact Or.inl ⟨_, Or.inl rfl, by rw [factUnitStep_direct h, directStep_below h2]⟩
      · exact Or.inr (Or.inl ⟨_, _, by rw [factUnitStep_direct h, directStep_even h2]⟩)
    | batch => exact Or.inr (Or.inr ⟨_, _, factUnitStep_batch h⟩)
    | replay => exact Or.inr (Or.inr ⟨_, _, factUnitStep_replay h⟩)
    | found => exact Or.inr (Or.inl ⟨_, _, factUnitStep_found h⟩)
    | exhausted => exact Or.inl ⟨_, Or.inr rfl, factUnitStep_exhausted h⟩

/-! The search, case by case. -/

theorem batchStep_iterate (cfg : Config) {r : Search} (h : r.j < 2 ^ r.k) :
    batchStep cfg r = (.batch, iterate r) := if_pos h

theorem batchStep_toReplay (cfg : Config) {r : Search} (h : 2 ^ r.k ≤ r.j) (hg : Nat.gcd r.prod r.n = r.n) :
    batchStep cfg r = (.replay, { r with g := Nat.gcd r.prod r.n, j := 0 }) :=
  (if_neg (Nat.not_lt.2 h)).trans (if_pos hg)

theorem batchStep_endCycle (cfg : Config) {r : Search} (h : 2 ^ r.k ≤ r.j) (hg : Nat.gcd r.prod r.n ≠ r.n) :
    batchStep cfg r = endCycle cfg { r with g := Nat.gcd r.prod r.n } :=
  (if_neg (Nat.not_lt.2 h)).trans (if_neg hg)

/-- The working registers after one replay step. -/
def replayed (r : Search) : Search :=
  { r with
    ys := rhoNext r.n r.c r.ys
    g := Nat.gcd (absdiff r.x (rhoNext r.n r.c r.ys)) r.n
    j := r.j + 1 }

theorem replayStep_continue (cfg : Config) {r : Search} (h : (replayed r).g ≤ 1) (hj : r.j + 1 < 2 ^ r.k) :
    replayStep cfg r = (.replay, replayed r) := if_pos ⟨h, hj⟩

theorem replayStep_endCycle (cfg : Config) {r : Search} (h : ¬((replayed r).g ≤ 1 ∧ r.j + 1 < 2 ^ r.k)) :
    replayStep cfg r = endCycle cfg (replayed r) := if_neg h

theorem endCycle_found (cfg : Config) {r : Search} (h : 1 < r.g ∧ r.g < r.n) : endCycle cfg r = (.found, r) :=
  if_pos h

theorem endCycle_collapse (cfg : Config) {r : Search} (h : r.g = r.n) : endCycle cfg r = nextConstant cfg r :=
  (if_neg (by omega)).trans (if_pos h)

theorem endCycle_nextCycle (cfg : Config) {r : Search} (h : ¬(1 < r.g ∧ r.g < r.n)) (hn : r.g ≠ r.n)
    (hk : r.k + 1 < cfg.rhoMaxCycles) : endCycle cfg r = (.batch, startCycle (r.k + 1) r) :=
  (if_neg h).trans ((if_neg hn).trans (if_pos hk))

theorem endCycle_lastCycle (cfg : Config) {r : Search} (h : ¬(1 < r.g ∧ r.g < r.n)) (hn : r.g ≠ r.n)
    (hk : ¬r.k + 1 < cfg.rhoMaxCycles) : endCycle cfg r = nextConstant cfg r :=
  (if_neg h).trans ((if_neg hn).trans (if_neg hk))

theorem nextConstant_more (cfg : Config) {r : Search} (h : r.c < cfg.rhoCLast) :
    nextConstant cfg r = (.batch, startConstant cfg (r.c + 1) r) := if_pos h

theorem nextConstant_last (cfg : Config) {r : Search} (h : ¬r.c < cfg.rhoCLast) :
    nextConstant cfg r = (.exhausted, r) := if_neg h

/-- Everything the end of a cycle can do. -/
theorem endCycle_cases (cfg : Config) (r : Search) :
    (1 < r.g ∧ r.g < r.n ∧ endCycle cfg r = (.found, r)) ∨
    (¬(1 < r.g ∧ r.g < r.n) ∧ r.g ≠ r.n ∧ r.k + 1 < cfg.rhoMaxCycles ∧
      endCycle cfg r = (.batch, startCycle (r.k + 1) r)) ∨
    ((r.g = r.n ∨ ¬(1 < r.g ∧ r.g < r.n) ∧ ¬r.k + 1 < cfg.rhoMaxCycles) ∧ r.c < cfg.rhoCLast ∧
      endCycle cfg r = (.batch, startConstant cfg (r.c + 1) r)) ∨
    ((r.g = r.n ∨ ¬(1 < r.g ∧ r.g < r.n) ∧ ¬r.k + 1 < cfg.rhoMaxCycles) ∧ ¬r.c < cfg.rhoCLast ∧
      endCycle cfg r = (.exhausted, r)) := by
  by_cases h1 : 1 < r.g ∧ r.g < r.n
  · exact Or.inl ⟨h1.1, h1.2, endCycle_found cfg h1⟩
  · by_cases h2 : r.g = r.n
    · rw [endCycle_collapse cfg h2]
      by_cases h3 : r.c < cfg.rhoCLast
      · exact Or.inr (Or.inr (Or.inl ⟨Or.inl h2, h3, nextConstant_more cfg h3⟩))
      · exact Or.inr (Or.inr (Or.inr ⟨Or.inl h2, h3, nextConstant_last cfg h3⟩))
    · by_cases h4 : r.k + 1 < cfg.rhoMaxCycles
      · exact Or.inr (Or.inl ⟨h1, h2, h4, endCycle_nextCycle cfg h1 h2 h4⟩)
      · rw [endCycle_lastCycle cfg h1 h2 h4]
        by_cases h3 : r.c < cfg.rhoCLast
        · exact Or.inr (Or.inr (Or.inl ⟨Or.inr ⟨h1, h4⟩, h3, nextConstant_more cfg h3⟩))
        · exact Or.inr (Or.inr (Or.inr ⟨Or.inr ⟨h1, h4⟩, h3, nextConstant_last cfg h3⟩))

/-! Arithmetic. -/

theorem rhoNext_lt {n : Nat} (c y : Nat) (h : 0 < n) : rhoNext n c y < n := Nat.mod_lt _ h

theorem prodNext_lt {n : Nat} (x y prod : Nat) (h : 0 < n) : prodNext n x y prod < n := Nat.mod_lt _ h

/-- `gcd(a, n) = n` exactly when `a = 0`, for `a` below `n` (R124). -/
theorem gcd_eq_self_iff {a n : Nat} (h : a < n) : Nat.gcd a n = n ↔ a = 0 := by
  constructor
  · intro hg
    by_contra h0
    have := Nat.gcd_le_left n (Nat.pos_of_ne_zero h0)
    omega
  · rintro rfl; simp

/-! The command read as a whole. -/

theorem wholeBatch_zero (n c x y prod : Nat) : wholeBatch n c x 0 y prod = (y, prod) := rfl

theorem wholeBatch_succ (n c x r y prod : Nat) :
    wholeBatch n c x (r + 1) y prod = wholeBatch n c x r (rhoNext n c y) (prodNext n x (rhoNext n c y) prod) := rfl

theorem wholeReplay_zero (n c x ys g : Nat) : wholeReplay n c x 0 ys g = g := rfl

theorem wholeReplay_stop {n c x ys : Nat} (r g : Nat) (h : 1 < Nat.gcd (absdiff x (rhoNext n c ys)) n) :
    wholeReplay n c x (r + 1) ys g = Nat.gcd (absdiff x (rhoNext n c ys)) n := if_pos h

theorem wholeReplay_go {n c x ys : Nat} (r g : Nat) (h : ¬1 < Nat.gcd (absdiff x (rhoNext n c ys)) n) :
    wholeReplay n c x (r + 1) ys g =
      wholeReplay n c x r (rhoNext n c ys) (Nat.gcd (absdiff x (rhoNext n c ys)) n) := if_neg h

/-- The `G` with which a cycle of the whole reading ends: the batch gcd, or what the replay finds when it is `N`. -/
def wholeCycleG (n c k y : Nat) : Nat :=
  if Nat.gcd (wholeBatch n c y (2 ^ k) y 1).2 n = n then
    wholeReplay n c y (2 ^ k) y (Nat.gcd (wholeBatch n c y (2 ^ k) y 1).2 n)
  else Nat.gcd (wholeBatch n c y (2 ^ k) y 1).2 n

theorem wholeConstant_succ (n c fuel k y : Nat) :
    wholeConstant n c (fuel + 1) k y =
      if 1 < wholeCycleG n c k y ∧ wholeCycleG n c k y < n then some (wholeCycleG n c k y)
      else if wholeCycleG n c k y = n then none
      else wholeConstant n c fuel (k + 1) (wholeBatch n c y (2 ^ k) y 1).1 := rfl

theorem wholeSearch_succ (n y0 maxCycles fuel c : Nat) :
    wholeSearch n y0 maxCycles (fuel + 1) c =
      (wholeConstant n c maxCycles 0 y0).or (wholeSearch n y0 maxCycles fuel (c + 1)) := by
  rw [wholeSearch]
  cases wholeConstant n c maxCycles 0 y0 <;> rfl

end Sys2Proof.Machine
end

