-- ==== Sys2Proof/Laws/PerInstr.lean ====
section
/-! SUPPORT. Statements about an instruction as syntax, one lemma per constructor. -/

/-- The encoding of a command is a well-formed word: `RSV` is written as 0 and `OP` is assigned
(spec/30_encoding.md R70). -/
def Sys2Proof.Laws.EncodingFields.Statement (i : Sys2Proof.Instr) : Prop :=
  i.wellFormed = true ∧ (Sys2Proof.encode i).wellFormed = true

theorem Sys2Proof.Laws.EncodingFields.encryptIge : Sys2Proof.Laws.EncodingFields.Statement .encryptIge := by
  unfold Sys2Proof.Laws.EncodingFields.Statement; decide

theorem Sys2Proof.Laws.EncodingFields.decryptIge : Sys2Proof.Laws.EncodingFields.Statement .decryptIge := by
  unfold Sys2Proof.Laws.EncodingFields.Statement; decide

theorem Sys2Proof.Laws.EncodingFields.factorizePqPair :
    Sys2Proof.Laws.EncodingFields.Statement .factorizePqPair := by
  unfold Sys2Proof.Laws.EncodingFields.Statement; decide
end

