-- ==== Sys2Proof/Laws/Step.lean ====
section
/-! SUPPORT. What a step of the machine and a host action can do, said once. -/

namespace Sys2Proof.Machine

/-! Turns. -/

@[simp] theorem takeTurn_cons (s : State) (a : Agent) (ts : List Agent) (h : s.turns = a :: ts) :
    takeTurn s = (a, { s with turns := ts }) := by simp [takeTurn, h]

theorem takeTurn_nil (s : State) (h : s.turns = []) : takeTurn s = (fairAgent s, s) := by simp [takeTurn, h]

/-- Taking a turn changes `turns` and nothing else. -/
theorem takeTurn_frame (s : State) : (takeTurn s).2 = { s with turns := (takeTurn s).2.turns } := by
  unfold takeTurn; split <;> rfl

/-! Host actions. -/

@[simp] theorem statusOf_ige (s : State) : statusOf .ige s = s.igeStatus := rfl

@[simp] theorem statusOf_fact (s : State) : statusOf .fact s = s.factStatus := rfl

theorem writeOperand_next {u : UnitId} {pl : Place} {s w t : State} (h : writeOperand u pl s w = .next t) :
    statusBusy (statusOf u s) = false ∧ t = w := by
  unfold writeOperand at h
  split at h
  · simp at h
  · rename_i hb; exact ⟨by simpa using hb, by simpa using h.symm⟩

/-- A number that `LEN` holds is what is stored, and no free value is drawn. -/
theorem lenWritten_fits {cfg : Config} {n : Nat} (draws : Nat) (h : n < 2 ^ cfg.lenW) :
    lenWritten cfg n draws = (n, draws) := if_pos h

/-- A number that `LEN` does not hold: a free value, and the next one is another. -/
theorem lenWritten_wide {cfg : Config} {n : Nat} (draws : Nat) (h : ¬n < 2 ^ cfg.lenW) :
    lenWritten cfg n draws = (cfg.freeLen draws % 2 ^ cfg.lenW, draws + 1) := if_neg h

/-- Whatever is written, `LEN` holds a number of `LENW` bits. -/
theorem lenWritten_lt (cfg : Config) (n draws : Nat) : (lenWritten cfg n draws).1 < 2 ^ cfg.lenW := by
  unfold lenWritten
  split
  · assumption
  · exact Nat.mod_lt _ (Nat.two_pow_pos _)

/-- A number that `PQ` holds is what is stored, and no free value is drawn. -/
theorem pqWritten_fits {cfg : Config} {n : Nat} (draws : Nat) (h : n < 2 ^ 64) :
    pqWritten cfg n draws = (BitVec.ofNat 64 n, draws) := if_pos h

/-- A number that `PQ` does not hold: a free value, and the next one is another. -/
theorem pqWritten_wide {cfg : Config} {n : Nat} (draws : Nat) (h : ¬n < 2 ^ 64) :
    pqWritten cfg n draws = (cfg.freePq draws, draws + 1) := if_neg h

theorem returnDatum_next {d : HostDatum} {s t : State} (h : returnDatum d s = .next t) :
    t = { s with readData := some d } := (Host.Outcome.next.inj h).symm

theorem returnBytes_next {pl : Place} {bs : Option (List Byte)} {s t : State} (h : returnBytes pl bs s = .next t) :
    ∃ l, bs = some l ∧ t = { s with readData := some (.buffer l) } := by
  unfold returnBytes at h
  split at h
  · exact ⟨_, rfl, returnDatum_next h⟩
  · simp at h

/-- A read writes the datum and, for a status register, the record that a success has been seen. -/
theorem readRegister_next {r : RegName} {s t : State} (h : readRegister r s = .next t) :
    t = readStatus .ige s ∨ t = readStatus .fact s ∨ ∃ x, t = { s with readData := some x } := by
  have datum : ∀ {d}, returnDatum d s = .next t →
      t = readStatus .ige s ∨ t = readStatus .fact s ∨ ∃ x, t = { s with readData := some x } :=
    fun h => Or.inr (Or.inr ⟨_, returnDatum_next h⟩)
  cases r with
  | key => exact datum h
  | iv => exact datum h
  | len => exact datum h
  | pq => exact datum h
  | p =>
    simp only [readRegister] at h
    split at h
    · exact datum h
    · simp at h
  | q =>
    simp only [readRegister] at h
    split at h
    · exact datum h
    · simp at h
  | igeStatus => exact Or.inl (Host.Outcome.next.inj h).symm
  | factStatus => exact Or.inr (Or.inl (Host.Outcome.next.inj h).symm)
  | cmd => simp [readRegister] at h

theorem readObuf_next {cfg : Config} {a n : Nat} {s t : State} (h : readObuf cfg a n s = .next t) :
    ∃ x, t = { s with readData := some x } := by
  unfold readObuf at h
  split at h
  · simp at h
  · split at h
    · simp at h
    · obtain ⟨x, -, hx⟩ := returnBytes_next h; exact ⟨_, hx⟩

theorem readIbuf_next {cfg : Config} {a n : Nat} {s t : State} (h : readIbuf cfg a n s = .next t) :
    ∃ x, t = { s with readData := some x } := by
  unfold readIbuf at h
  split at h
  · simp at h
  · obtain ⟨x, -, hx⟩ := returnBytes_next h; exact ⟨_, hx⟩

theorem writeReadOnly_next {cfg : Config} {r : ReadOnly} {s t : State} (h : writeReadOnly cfg r s = .next t) :
    t = s := by
  unfold writeReadOnly at h
  split at h
  · split at h
    · simpa using h.symm
    · simp at h
  all_goals simpa using h.symm

/-- A command that is accepted: which one, that it was ready, and the state after acceptance. -/
theorem exec_next {i : Instr} {s t : State} (h : exec i s = .next t) :
    (∃ c, (i = .encryptIge ∧ c = .encrypt ∨ i = .decryptIge ∧ c = .decrypt) ∧
      igeReady Config.machine s = true ∧ t = startIge c s) ∨
    (i = .factorizePqPair ∧ factReady s = true ∧ t = startFact Config.machine s) := by
  cases i with
  | encryptIge =>
    obtain ⟨h1, h2⟩ := acceptIge_next (cfg := Config.machine) h
    exact Or.inl ⟨_, Or.inl ⟨rfl, rfl⟩, h1, h2⟩
  | decryptIge =>
    obtain ⟨h1, h2⟩ := acceptIge_next (cfg := Config.machine) h
    exact Or.inl ⟨_, Or.inr ⟨rfl, rfl⟩, h1, h2⟩
  | factorizePqPair =>
    obtain ⟨h1, h2⟩ := acceptFact_next (cfg := Config.machine) h
    exact Or.inr ⟨rfl, h1, h2⟩

theorem writeCommand_next {w : CommandWord} {s t : State} (h : writeCommand w s = .next t) :
    ∃ i, decode w = .ok i ∧ exec i s = .next t := by
  unfold writeCommand at h
  split at h
  · rename_i i hi; exact ⟨i, hi, h⟩
  · simp at h

/-- What a host action writes outside the CORE and its own record: only `readData`, the seen bits and `script`. -/
def SameCore (s t : State) : Prop :=
  t = { s with
        readData := t.readData, igeSeen := t.igeSeen, factSeen := t.factSeen, script := t.script }

/-- The seen bits grow only by a read of a success. -/
def SeenGrows (s t : State) : Prop :=
  (t.igeSeen = true → s.igeSeen = true ∨ statusIsSuccess s.igeStatus = true) ∧
    (t.factSeen = true → s.factSeen = true ∨ statusIsSuccess s.factStatus = true)

theorem sameCore_refl (s : State) : SameCore s s := rfl

theorem sameCore_readStatus (u : UnitId) (s : State) : SameCore s (readStatus u s) := by cases u <;> rfl

theorem seenGrows_readStatus (u : UnitId) (s : State) : SeenGrows s (readStatus u s) := by
  cases u <;> simp [SeenGrows] <;> exact Or.inl

/-- Everything a host action can do. The state is the one whose script is what comes after the action. -/
theorem hostAction_cases {cfg : Config} {a : HostAction} {s t : State} (h : hostAction cfg a s = .next t) :
    (∃ v, a = .wrKey v ∧ statusBusy s.igeStatus = false ∧ t = { s with key := ⟨v, true⟩ }) ∨
    (∃ v, a = .wrIv v ∧ statusBusy s.igeStatus = false ∧ t = { s with iv := ⟨v, true⟩ }) ∨
    (∃ n, a = .wrLen n ∧ statusBusy s.igeStatus = false ∧
      t = { s with len := ⟨(lenWritten cfg n s.draws).1, true⟩, draws := (lenWritten cfg n s.draws).2 }) ∨
    (∃ n, a = .wrPq n ∧ statusBusy s.factStatus = false ∧
      t = { s with pq := ⟨(pqWritten cfg n s.draws).1, true⟩, draws := (pqWritten cfg n s.draws).2 }) ∨
    (∃ x bs, a = .wrIbuf x bs ∧ addressesExist cfg x bs.length = true ∧ statusBusy s.igeStatus = false ∧
      t = { s with ibuf := s.ibuf.writeBytes x bs }) ∨
    (∃ w i, a = .wrCmd w ∧ decode w = .ok i ∧ exec i s = .next t) ∨
    (a = .reset ∧ t = resetEvent s) ∨
    ((∀ w, a ≠ .wrCmd w) ∧ a ≠ .reset ∧ SameCore s t ∧ SeenGrows s t ∧
      (t.script = s.script ∨ ∃ u, a = .wait u ∧ t = waitRead u (.wait u :: s.script) s)) := by
  have same : ∀ {t : State}, (∃ x, t = { s with readData := some x }) →
      SameCore s t ∧ SeenGrows s t ∧ t.script = s.script := by
    rintro t ⟨x, rfl⟩; exact ⟨rfl, ⟨Or.inl, Or.inl⟩, rfl⟩
  have read : ∀ {t : State}, t = readStatus .ige s ∨ t = readStatus .fact s ∨
      (∃ x, t = { s with readData := some x }) → SameCore s t ∧ SeenGrows s t ∧ t.script = s.script := by
    rintro t (rfl | rfl | h)
    · exact ⟨sameCore_readStatus _ _, seenGrows_readStatus _ _, rfl⟩
    · exact ⟨sameCore_readStatus _ _, seenGrows_readStatus _ _, rfl⟩
    · exact same h
  cases a with
  | wrKey v =>
    simp only [hostAction] at h
    obtain ⟨h1, h2⟩ := writeOperand_next h
    exact Or.inl ⟨v, rfl, h1, h2⟩
  | wrIv v =>
    simp only [hostAction] at h
    obtain ⟨h1, h2⟩ := writeOperand_next h
    exact Or.inr (Or.inl ⟨v, rfl, h1, h2⟩)
  | wrLen n =>
    simp only [hostAction, writeLen] at h
    obtain ⟨h1, h2⟩ := writeOperand_next h
    exact Or.inr (Or.inr (Or.inl ⟨n, rfl, h1, h2⟩))
  | wrPq n =>
    simp only [hostAction, writePq] at h
    obtain ⟨h1, h2⟩ := writeOperand_next h
    exact Or.inr (Or.inr (Or.inr (Or.inl ⟨n, rfl, h1, h2⟩)))
  | wrIbuf x bs =>
    simp only [hostAction, writeIbuf] at h
    split at h
    · have := Host.Outcome.next.inj h; subst this
      exact Or.inr (Or.inr (Or.inr (Or.inr (Or.inr (Or.inr (Or.inr
        ⟨by simp, by simp, sameCore_refl _, ⟨Or.inl, Or.inl⟩, Or.inl rfl⟩))))))
    · split at h
      · rename_i hx
        obtain ⟨h1, h2⟩ := writeOperand_next h
        exact Or.inr (Or.inr (Or.inr (Or.inr (Or.inl ⟨x, bs, rfl, hx, h1, h2⟩))))
      · simp at h
  | wrCmd w =>
    obtain ⟨i, h1, h2⟩ := writeCommand_next h
    exact Or.inr (Or.inr (Or.inr (Or.inr (Or.inr (Or.inl ⟨w, i, rfl, h1, h2⟩)))))
  | reset =>
    have h := Host.Outcome.next.inj h
    exact Or.inr (Or.inr (Or.inr (Or.inr (Or.inr (Or.inr (Or.inl ⟨rfl, h.symm⟩))))))
  | wrReadOnly r =>
    have := writeReadOnly_next (cfg := cfg) h; subst this
    exact Or.inr (Or.inr (Or.inr (Or.inr (Or.inr (Or.inr (Or.inr
      ⟨by simp, by simp, sameCore_refl _, ⟨Or.inl, Or.inl⟩, Or.inl rfl⟩))))))
  | rd r =>
    obtain ⟨h1, h2, h3⟩ := read (readRegister_next h)
    exact Or.inr (Or.inr (Or.inr (Or.inr (Or.inr (Or.inr (Or.inr ⟨by simp, by simp, h1, h2, Or.inl h3⟩))))))
  | rdObuf x n =>
    obtain ⟨h1, h2, h3⟩ := same (readObuf_next h)
    exact Or.inr (Or.inr (Or.inr (Or.inr (Or.inr (Or.inr (Or.inr ⟨by simp, by simp, h1, h2, Or.inl h3⟩))))))
  | rdIbuf x n =>
    obtain ⟨h1, h2, h3⟩ := same (readIbuf_next h)
    exact Or.inr (Or.inr (Or.inr (Or.inr (Or.inr (Or.inr (Or.inr ⟨by simp, by simp, h1, h2, Or.inl h3⟩))))))
  | wait u =>
    have h := Host.Outcome.next.inj h
    refine Or.inr (Or.inr (Or.inr (Or.inr (Or.inr (Or.inr (Or.inr
      ⟨by simp, by simp, ?_, ?_, Or.inr ⟨u, rfl, h.symm⟩⟩))))))
    · rw [← h]; unfold waitRead; dsimp only
      split
      · exact sameCore_readStatus _ _
      · cases u <;> rfl
    · rw [← h]; unfold waitRead; dsimp only
      split
      · exact seenGrows_readStatus _ _
      · exact seenGrows_readStatus u s

/-- Everything a step can do, on the state after the turn is taken. -/
theorem step_cases {s t : State} (h : step s = .next t) :
    ((takeTurn s).1 = .host ∧
      ((s.script = [] ∧ t = (takeTurn s).2) ∨
        ∃ a rest, s.script = a :: rest ∧
          hostAction Config.machine a { (takeTurn s).2 with script := rest } = .next t)) ∨
    ((takeTurn s).1 = .igeUnit ∧ igeUnitStep Config.machine (takeTurn s).2 = .next t) ∨
    ((takeTurn s).1 = .factUnit ∧ t = factUnitStep Config.machine (takeTurn s).2) := by
  have hs : (takeTurn s).2.script = s.script := by rw [takeTurn_frame]
  unfold step agentStep at h
  split at h
  · rename_i ha
    refine Or.inl ⟨ha, ?_⟩
    unfold hostStep at h
    split at h
    · rename_i he; exact Or.inl ⟨hs ▸ he, by simpa using h.symm⟩
    · rename_i a rest he; exact Or.inr ⟨a, rest, hs ▸ he, h⟩
  · rename_i ha; exact Or.inr (Or.inl ⟨ha, h⟩)
  · rename_i ha; exact Or.inr (Or.inr ⟨ha, by simpa using h.symm⟩)

end Sys2Proof.Machine
end

