-- ==== Sys2Proof/Tests/Slice0.lean ====
section
/-! SUPPORT. Tests. Expected results are written out from spec/30_encoding.md R70, R71 and spec/95_test_vectors.md,
not from the model. Then one witness for every statement of the package that has hypotheses. -/

namespace Sys2Proof.Tests

open Sys2Proof.Machine Sys2Proof.Safety

/-! Well-formedness: an ill-formed word for each of the two checks, which the check refuses. -/

/-- `OP` is the unassigned `0b00`. -/
theorem test_wellFormed_refuses_unassigned_op : CommandWord.wellFormed 0b00000000 = false := by decide

/-- `RSV` is not 0: bit 2, the lowest reserved bit, and bit 7, the highest, beside a good `OP`. -/
theorem test_wellFormed_refuses_reserved_bits :
    CommandWord.wellFormed 0b00000101 = false ∧ CommandWord.wellFormed 0b10000011 = false := by decide

theorem test_wellFormed_takes_the_three :
    CommandWord.wellFormed 0b00000001 = true ∧ CommandWord.wellFormed 0b00000010 = true ∧
      CommandWord.wellFormed 0b00000011 = true := by decide

/-! Decoding: every word of R71, bits 7:2 `RSV`, bits 1:0 `OP`. -/

theorem test_decode_encryptIge : decode 0b00000001 = .ok .encryptIge := by decide
theorem test_decode_decryptIge : decode 0b00000010 = .ok .decryptIge := by decide
theorem test_decode_factorizePqPair : decode 0b00000011 = .ok .factorizePqPair := by decide

/-- R73: `0x00`, `0x04` and `0xFF` are reserved. -/
theorem test_decode_reserved :
    decode 0x00 = .error .unassignedOp ∧ decode 0x04 = .error .reservedBits ∧
      decode 0xFF = .error .reservedBits := by decide

/-- Every command has a word that decodes to it, and a bit above the word makes it none (R76). -/
theorem test_decodeTableWord :
    decodeTableWord 8 0b01 = some .encryptIge ∧ decodeTableWord 8 0b10 = some .decryptIge ∧
      decodeTableWord 8 0b11 = some .factorizePqPair ∧ decodeTableWord 8 0x00 = none ∧
      decodeTableWord 8 0x101 = none := by decide

/-! Small states and the test ciphers of spec/42_cipher_primitive.md R165. -/

/-- The bytes of a number of `n` bytes, most significant first: a block or a key as the spec writes it. -/
def hex (n v : Nat) : Vector Byte n := Vector.ofFn fun j => BitVec.ofNat 8 (v >>> (8 * (n - 1 - j.val)))

/-- `TC_ROT`. -/
def tcRot (_ : Key) : Equiv.Perm Block where
  toFun b := Vector.ofFn fun (j : Fin 16) => b[(j.val + 1) % 16]
  invFun b := Vector.ofFn fun (j : Fin 16) => b[(j.val + 15) % 16]
  left_inv b := by
    ext1 j hj
    simp only [Vector.getElem_ofFn, show ((j + 15) % 16 + 1) % 16 = j by omega]
  right_inv b := by
    ext1 j hj
    simp only [Vector.getElem_ofFn, show ((j + 1) % 16 + 15) % 16 = j by omega]

/-- `TC_ADD`. -/
def tcAdd (k : Key) : Equiv.Perm Block where
  toFun b := Vector.ofFn fun (j : Fin 16) => (b[j.val] + k[j.val]) ^^^ k[16 + j.val]
  invFun b := Vector.ofFn fun (j : Fin 16) => (b[j.val] ^^^ k[16 + j.val]) - k[j.val]
  left_inv b := by ext1 j hj; simp
  right_inv b := by ext1 j hj; simp

/-- A small configuration with a test cipher. -/
def small (c : Key → Equiv.Perm Block) : Config :=
  { lenW := 8, bufBytes := some 64, cipher := c, rhoY0 := 2, rhoCLast := 8, rhoMaxCycles := 20,
    freeLen := Config.openFreeLen, freePq := Config.openFreePq }

/-- A buffer that holds the blocks from address 0. -/
def bufferOf (bs : List Block) : Memory := Memory.writeBytes [] 0 (bs.flatMap fun b => b.toList)

/-- The IGE unit idle with its operands written: length `n`, the input blocks `bs`. -/
def igeIdle (n : Nat) (bs : List Block) : State :=
  { State.reset with
    key := ⟨Vector.replicate 32 0, true⟩, iv := ⟨Vector.replicate 32 0, true⟩, len := ⟨n, true⟩,
    ibuf := bufferOf bs }

/-- The IGE unit busy before block `i`, with the chaining values given. -/
def igeBusy (c : IgeCommand) (n i : Nat) (bs : List Block) (pc pp : Block) : State :=
  { igeIdle n bs with
    igeStatus := 0x01, igeOp := some c, blk := i, prevCipher := pc, prevPlain := pp,
    obuf := bufferOf (List.replicate i zeroBlock) }

/-- The FACT unit idle with `PQ` written. -/
def factIdle (pq : U64) : State := { State.reset with pq := ⟨pq, true⟩ }

/-- The FACT unit busy in a phase of its search. -/
def factBusy (pq : U64) (ph : FactPhase) (r : Search) : State :=
  { factIdle pq with factStatus := 0x01, factOp := some ph, search := r }

/-- A fact about the next state; false of a stop. -/
def nextIs (o : Host.Outcome State Fault Refusal) (p : State → Bool) : Bool :=
  match o with
  | .next s => p s
  | .fault _ => false
  | .refused _ => false

/-! `ENCRYPT_IGE`, one block step each. -/

/-- V8b, block 0: `TC_ADD`, `K_B`, `IV_B`. -/
theorem test_encrypt_block_step_tcAdd :
    nextIs
      (igeUnitStep (small tcAdd)
        { igeBusy .encrypt 64 0
            [hex 16 0x0109131F2D3D4F637991ABC7E505274B, zeroBlock, zeroBlock, zeroBlock]
            (hex 16 0xA5B89FF2D1340B6E4DA0879AF9DC3316) (hex 16 0x7548AF82E1C4DB3E1D7057AA89ECC326) with
          key := ⟨hex 32 0x031425364758697A8B9CADBECFE0F102132435465768798A9BACBDCEDFF00112, true⟩ })
      (fun t => decide
        (t.obuf.readBlock 0 = some (hex 16 0xC1C94B67950D8F333971937F1DE5E76B) ∧ t.blk = 1 ∧
          t.prevCipher = hex 16 0xC1C94B67950D8F333971937F1DE5E76B ∧
          t.prevPlain = hex 16 0x0109131F2D3D4F637991ABC7E505274B)) = true := by decide

/-- V7, block 1: `TC_ROT`, where the two chaining values the other way round give another block. -/
theorem test_encrypt_second_block_tcRot :
    nextIs
      (igeUnitStep (small tcRot)
        (igeBusy .encrypt 32 1
          [zeroBlock, hex 16 0x101112131415161718191A1B1C1D1E1F]
          (hex 16 0x101112131415161718191A1B1C1D1E1F) (hex 16 0x000102030405060708090A0B0C0D0E0F)))
      (fun t => decide
        (t.obuf.readBlock 16 = some (hex 16 0x000102030405060708090A0B0C0D0E0F) ∧
          t.obuf.readBlock 0 = some zeroBlock)) = true := by decide

/-! `DECRYPT_IGE`, one block step each. -/

/-- V3b: `TC_ROT`, `IV_A`. -/
theorem test_decrypt_block_step_tcRot :
    nextIs
      (igeUnitStep (small tcRot)
        (igeBusy .decrypt 16 0 [zeroBlock]
          (hex 16 0x000102030405060708090A0B0C0D0E0F) (hex 16 0x101112131415161718191A1B1C1D1E1F)))
      (fun t => decide
        (t.obuf.readBlock 0 = some (hex 16 0x1F111311171113111F11131117111311) ∧
          t.prevCipher = zeroBlock ∧
          t.prevPlain = hex 16 0x1F111311171113111F11131117111311)) = true := by decide

/-- V16, block 1 of the first ciphertext: `TC_ADD`, key byte 0 is 1; `P_1 = D(02) xor FF = FE`. -/
theorem test_decrypt_second_block_tcAdd :
    nextIs
      (igeUnitStep (small tcAdd)
        { igeBusy .decrypt 32 1 [zeroBlock, hex 16 (0x02 <<< 120)] zeroBlock (hex 16 (0xFF <<< 120)) with
          key := ⟨hex 32 (0x01 <<< 248), true⟩ })
      (fun t => decide (t.obuf.readBlock 16 = some (hex 16 (0xFE <<< 120)))) = true := by decide

/-! `FACTORIZE_PQ_PAIR`, one step each. -/

/-- V30, `PQ = 10403`: the ninth replay step finds `G = 101` at `YS = 943` against the anchor 236. -/
theorem test_factorize_replay_finds_divisor :
    factUnitStep (small tcRot) (factBusy 10403 .replay ⟨10403, 1, 4, 8, 236, 3458, 2799, 0, 1⟩) =
      factBusy 10403 .found ⟨10403, 1, 4, 9, 236, 3458, 943, 0, 101⟩ := by decide

/-- V29d, `PQ = 25`: the third replay step of cycle 2 gives `G = N`, and constant 2 starts from `Y = 2`. -/
theorem test_factorize_collapse_starts_next_constant :
    factUnitStep (small tcRot) (factBusy 25 .replay ⟨25, 1, 2, 2, 2, 5, 1, 0, 1⟩) =
      factBusy 25 .batch ⟨25, 2, 0, 0, 2, 2, 2, 1, 25⟩ := by decide

/-! The machine. -/

/-- A word placed by the loader is accepted by the very next step from reset. -/
theorem test_fetched_word_runs_from_reset :
    nextIs (step (State.reset.withFetchWord 8 0b01)) (fun t => decide (t.igeStatus = 0x01)) = true ∧
      nextIs (step (State.reset.withFetchWord 8 0b10)) (fun t => decide (t.igeStatus = 0x01)) = true ∧
      nextIs (step (State.reset.withFetchWord 8 0b11)) (fun t => decide (t.factStatus = 0x01)) = true :=
  ⟨rfl, rfl, rfl⟩

/-! Witnesses: for every statement with hypotheses, a concrete state and operands that meet them. -/

/-- A decidable form of the invariant for states whose buffers and length are at most one block. -/
def smallInv (s : State) : Bool :=
  s.ibuf.wf && s.obuf.wf && s.ibuf.below (some 16) && s.obuf.below (some 16) && decide (s.len.value ≤ 16) &&
    igeStatusLegal s.igeStatus && factStatusLegal s.factStatus &&
    statusBusy s.igeStatus == s.igeOp.isSome && statusBusy s.factStatus == s.factOp.isSome &&
    (!s.igeSeen || s.igeStatus == statusSuccess) && (!s.factSeen || s.factStatus == statusSuccess) &&
    (!(s.factStatus == statusSuccess) || (s.p.written && s.q.written)) &&
    (s.igeOp.isNone || (!aligned s.len.value ||
      (s.ibuf.hasBytes 0 s.len.value && decide (s.blk ≤ blockCount s.len.value) &&
        s.obuf.hasBytes 0 (16 * s.blk))))

/-- One block fits the buffers of the machine (log 3). -/
theorem machine_bufBytes_ge (c : Nat) (h : Config.machine.bufBytes = some c) : 16 ≤ c := by
  have h32 : 2 ^ 5 ≤ 2 ^ Config.machineLenW := Nat.pow_le_pow_right (by decide) (Nat.le_add_left _ _)
  simp only [Config.machine, Config.machineBufBytes, Option.map_eq_some_iff] at h
  obtain ⟨b, -, rfl⟩ := h
  omega

theorem machine_fits (n : Nat) (h : n ≤ 16) : fitsBuffer Config.machine n = true :=
  (fitsBuffer_iff _ _).2 fun c hc => h.trans (machine_bufBytes_ge c hc)

theorem machine_lenW (n : Nat) (h : n ≤ 16) : n < 2 ^ Config.machine.lenW := by
  have h32 : 2 ^ 5 ≤ 2 ^ Config.machine.lenW := Nat.pow_le_pow_right (by decide) (Nat.le_add_left _ _)
  omega

theorem below_machine (m : Memory) (h : m.below (some 16) = true) : m.below Config.machine.bufBytes = true := by
  cases hb : Config.machine.bufBytes with
  | none => rfl
  | some c =>
    have := machine_bufBytes_ge c hb
    simp only [Memory.below, List.all_eq_true, decide_eq_true_eq] at h ⊢
    intro x hx; have := h x hx; omega

/-- The invariant of a small state. -/
theorem inv_of_small (s : State) (h : smallInv s = true)
    (hf : ∀ ph, s.factOp = some ph → FactInv Config.machine s.pq.value.toNat ph s.search) :
    Inv Config.machine s := by
  simp only [smallInv, Bool.and_eq_true, decide_eq_true_eq] at h
  obtain ⟨⟨⟨⟨⟨⟨⟨⟨⟨⟨⟨⟨h1, h2⟩, h3⟩, h4⟩, h5⟩, h6⟩, h7⟩, h8⟩, h9⟩, h10⟩, h11⟩, h12⟩, h13⟩ := h
  have hige : ∀ c, s.igeOp = some c → aligned s.len.value = true →
      s.ibuf.hasBytes 0 s.len.value = true ∧ s.blk ≤ blockCount s.len.value ∧
        s.obuf.hasBytes 0 (16 * s.blk) = true := fun c hc ha => by
    simpa [hc, ha, and_assoc] using h13
  exact {
    ibuf_wf := h1, obuf_wf := h2, ibuf_below := below_machine _ h3, obuf_below := below_machine _ h4
    len_width := machine_lenW _ h5, ige_legal := h6, fact_legal := h7
    ige_busy := by simpa using h8, fact_busy := by simpa using h9
    ige_seen := fun h => by simpa [h] using h10
    fact_seen := fun h => by simpa [h] using h11
    fact_result := fun h => by simpa [h] using h12
    ige_op := fun c hc => {
      fits := fun _ => machine_fits _ h5, input := fun ha => (hige c hc ha).1
      blk_le := fun ha => (hige c hc ha).2.1, output := fun ha => (hige c hc ha).2.2 }
    fact_op := hf }

/-- The invariant of a small state whose FACT unit is idle. -/
theorem inv_of_idle (s : State) (h : smallInv s = true) (hf : s.factOp = none) : Inv Config.machine s :=
  inv_of_small s h fun _ hp => absurd hp (by simp [hf])

/-- One input block, idle. -/
def oneBlock : State := igeIdle 16 [zeroBlock]

theorem oneBlock_ready : igeReady Config.machine oneBlock = true := by
  rw [igeReady_iff]
  exact ⟨by decide, fun _ => ⟨machine_fits 16 (le_refl _), by decide⟩⟩

theorem empty_ready : igeReady Config.machine (igeIdle 0 []) = true := by
  rw [igeReady_iff]
  exact ⟨by decide, fun _ => ⟨rfl, rfl⟩⟩

theorem witness_DefinedWordsAreExactlyThree : CommandWord.rsv 0x04 ≠ 0 ∧ CommandWord.rsv 0xFF ≠ 0 := by decide

theorem witness_DecodeAndEncodeAgree : decode 0x02 = .ok .decryptIge := by decide

/-- A state in which the host's next action writes a word. -/
def writes (w : CommandWord) (ts : List Agent) (s : State) : State := { s with script := [.wrCmd w], turns := ts }

theorem witness_StepRunsTheWrittenCommand :
    (writes 0x01 [.host] State.reset).turns = [.host] ∧
      (writes 0x01 [.host] State.reset).script = .wrCmd 0x01 :: [] ∧ decode 0x01 = .ok .encryptIge ∧
      (writes 0x03 [] State.reset).turns = [] ∧ (writes 0x03 [] State.reset).igeOp = none ∧
      (writes 0x03 [] State.reset).factOp = none ∧ (writes 0x03 [] State.reset).script = .wrCmd 0x03 :: [] ∧
      decode 0x03 = .ok .factorizePqPair := by decide

theorem witness_ReservedWordIsRefused :
    (takeTurn (writes 0x00 [.host] State.reset)).1 = .host ∧
      (writes 0x00 [.host] State.reset).script = .wrCmd 0x00 :: [] ∧
      (0x00 : CommandWord) ≠ 0x01 ∧ (0x00 : CommandWord) ≠ 0x02 ∧ (0x00 : CommandWord) ≠ 0x03 ∧
      (0x04 : CommandWord) ≠ 0x01 ∧ (0x04 : CommandWord) ≠ 0x02 ∧ (0x04 : CommandWord) ≠ 0x03 := by decide

theorem witness_EncryptIgeWritesTheCiphertext :
    igeReady Config.machine oneBlock = true ∧ oneBlock.len.value % 16 = 0 ∧
      igeReady Config.machine (igeIdle 0 []) = true ∧ (igeIdle 0 []).len.value % 16 = 0 :=
  ⟨oneBlock_ready, rfl, empty_ready, rfl⟩

theorem witness_DecryptIgeWritesThePlaintext :
    igeReady Config.machine oneBlock = true ∧ oneBlock.len.value % 16 = 0 ∧
      igeReady Config.machine (igeIdle 0 []) = true ∧ (igeIdle 0 []).len.value % 16 = 0 :=
  ⟨oneBlock_ready, rfl, empty_ready, rfl⟩

/-- Two blocks: the first step, the last step, and the completion. -/
def twoBlocks (c : IgeCommand) (i : Nat) : State := igeBusy c 32 i [zeroBlock, zeroBlock] zeroBlock zeroBlock

theorem witness_EncryptBlockStep :
    (twoBlocks .encrypt 0).igeOp = some .encrypt ∧ (twoBlocks .encrypt 0).len.value % 16 = 0 ∧
      (twoBlocks .encrypt 0).blk < (twoBlocks .encrypt 0).len.value / 16 ∧
      (twoBlocks .encrypt 0).ibuf.readBlock (16 * (twoBlocks .encrypt 0).blk) = some zeroBlock ∧
      (twoBlocks .encrypt 1).blk < (twoBlocks .encrypt 1).len.value / 16 ∧
      (twoBlocks .encrypt 1).ibuf.readBlock (16 * (twoBlocks .encrypt 1).blk) = some zeroBlock ∧
      (twoBlocks .encrypt 2).blk = (twoBlocks .encrypt 2).len.value / 16 := by decide

theorem witness_DecryptBlockStep :
    (twoBlocks .decrypt 0).igeOp = some .decrypt ∧ (twoBlocks .decrypt 0).len.value % 16 = 0 ∧
      (twoBlocks .decrypt 0).blk < (twoBlocks .decrypt 0).len.value / 16 ∧
      (twoBlocks .decrypt 0).ibuf.readBlock (16 * (twoBlocks .decrypt 0).blk) = some zeroBlock ∧
      (twoBlocks .decrypt 1).blk < (twoBlocks .decrypt 1).len.value / 16 ∧
      (twoBlocks .decrypt 1).ibuf.readBlock (16 * (twoBlocks .decrypt 1).blk) = some zeroBlock ∧
      (twoBlocks .decrypt 2).blk = (twoBlocks .decrypt 2).len.value / 16 := by decide

/-- Lengths 15 and 17, with neither `KEY`, `IV` nor `IBUF` written (V11). -/
theorem witness_MisalignedLengthEndsInMalformedInput :
    ∀ n ∈ [1, 15, 17],
      statusBusy ({ State.reset with len := ⟨n, true⟩ } : State).igeStatus = false ∧
      ({ State.reset with len := ⟨n, true⟩ } : State).len.value % 16 ≠ 0 := by decide

/-- Busy with one block to come. -/
def busyOne (c : IgeCommand) : State := igeBusy c 16 0 [zeroBlock] zeroBlock zeroBlock

/-- Busy with a misaligned length. -/
def busyBad : State := igeBusy .encrypt 15 0 [] zeroBlock zeroBlock

theorem busyOne_inv (c : IgeCommand) : Inv Config.machine (busyOne c) :=
  inv_of_idle _ (by cases c <;> decide) rfl

theorem busyBad_inv : Inv Config.machine busyBad := inv_of_idle _ (by decide) rfl

theorem busyOne_step (cfg : Config) (c : IgeCommand) :
    igeUnitStep cfg (busyOne c) = .next (blockStep cfg c zeroBlock (busyOne c)) :=
  igeUnitStep_block rfl (show aligned 16 = true by decide) (show 0 < blockCount 16 by decide)
    (show (bufferOf [zeroBlock]).readBlock 0 = some zeroBlock by decide)

theorem busyBad_step (cfg : Config) : igeUnitStep cfg busyBad = .next (raise .ige .malformedInput busyBad) :=
  igeUnitStep_raise (c := .encrypt) rfl (by decide)

theorem witness_MalformedInputExactlyOnMisalignedLength :
    (Inv Config.machine busyBad ∧ busyBad.igeOp.isSome = true ∧ (∃ u, igeUnitStep Config.machine busyBad = .next u) ∧
        busyBad.len.value % 16 ≠ 0) ∧
      Inv Config.machine (busyOne .decrypt) ∧ (busyOne .decrypt).igeOp.isSome = true ∧
        (∃ u, igeUnitStep Config.machine (busyOne .decrypt) = .next u) ∧ (busyOne .decrypt).len.value % 16 = 0 :=
  ⟨⟨busyBad_inv, rfl, ⟨_, busyBad_step _⟩, by decide⟩, busyOne_inv _, rfl, ⟨_, busyOne_step _ _⟩, by decide⟩

/-- With no turns given, the busy unit moves. -/
theorem busyOne_machine_step : step (busyOne .encrypt) =
    .next (blockStep Config.machine .encrypt zeroBlock (busyOne .encrypt)) := by
  rw [← busyOne_step Config.machine .encrypt]; rfl

/-- A whole command on one block: acceptance, one block step, completion. -/
theorem run_oneBlock (s : State) (c : IgeCommand) (b : Block) (hl : s.len.value = 16)
    (hb : inputBlock s 0 = some b) :
    igeRun Config.machine 2 (startIge c s) =
      .next (complete .ige (blockStep Config.machine c b (startIge c s))) := by
  have ha : aligned s.len.value = true := by rw [hl]; decide
  have h1 := igeUnitStep_block (cfg := Config.machine) (s := startIge c s) (c := c) (input := b)
    (by rw [startIge_frame]) (by rw [startIge_frame]; exact ha)
    (by rw [startIge_aligned ha, hl]; show 0 < blockCount 16; decide) (by rw [startIge_aligned ha]; exact hb)
  have h2 := igeUnitStep_complete (cfg := Config.machine) (s := blockStep Config.machine c b (startIge c s)) (c := c)
    (by rw [blockStep_frame, startIge_frame]) (by rw [blockStep_frame, startIge_frame]; exact ha)
    (by rw [blockStep_frame, startIge_aligned ha]; simp [hl, blockCount])
  simp [igeRun, h1, h2]

/-- The state after the encryption of `oneBlock`. -/
def encrypted : State :=
  complete .ige (blockStep Config.machine .encrypt zeroBlock (startIge .encrypt oneBlock))

theorem encrypted_obuf : ∃ b, encrypted.obuf = Memory.writeBlock [] 0 b := by
  obtain ⟨out, nc, np, h⟩ := blockStep_eq Config.machine .encrypt zeroBlock (startIge .encrypt oneBlock)
  refine ⟨out, ?_⟩
  unfold encrypted
  rw [h, startIge_aligned (by decide)]
  rfl

/-- The state to decrypt in. -/
def toDecrypt : State := { igeIdle 16 [] with ibuf := encrypted.obuf }

theorem toDecrypt_input : ∃ b, inputBlock toDecrypt 0 = some b := by
  obtain ⟨b, hb⟩ := encrypted_obuf
  refine ⟨b, ?_⟩
  show encrypted.obuf.readBlock 0 = some b
  rw [hb, Memory.readBlock_writeBlock_same]

theorem toDecrypt_ready : igeReady Config.machine toDecrypt = true := by
  obtain ⟨b, hb⟩ := encrypted_obuf
  rw [igeReady_iff]
  refine ⟨by decide, fun _ => ⟨machine_fits 16 (le_refl _), ?_⟩⟩
  show encrypted.obuf.hasBytes 0 16 = true
  rw [Memory.hasBytes_iff, hb]
  intro j hj
  rw [Memory.read_writeBlock, dif_pos ⟨Nat.zero_le _, by omega⟩]
  rfl

theorem witness_DecryptCommandUndoesEncryptCommand :
    ∃ t u w x : State, 1 = oneBlock.len.value / 16 ∧
      igeReady Config.machine oneBlock = true ∧ oneBlock.len.value % 16 = 0 ∧
      exec .encryptIge oneBlock = .next t ∧ igeRun Config.machine (1 + 1) t = .next u ∧
      igeReady Config.machine toDecrypt = true ∧ toDecrypt.key = oneBlock.key ∧ toDecrypt.iv = oneBlock.iv ∧
      toDecrypt.len = oneBlock.len ∧ inputBlocks toDecrypt 1 = outputBlocks u 1 ∧
      exec .decryptIge toDecrypt = .next w ∧ igeRun Config.machine (1 + 1) w = .next x := by
  obtain ⟨b, hb⟩ := toDecrypt_input
  exact ⟨_, encrypted, _, _, rfl, oneBlock_ready, rfl, acceptIge_of_ready _ oneBlock_ready,
    run_oneBlock _ _ _ rfl (by decide), toDecrypt_ready, rfl, rfl, rfl, rfl,
    acceptIge_of_ready _ toDecrypt_ready, run_oneBlock _ _ _ rfl hb⟩

/-- Three blocks, with block 0, block 1 or block 2 changed. -/
def garbled (i : Nat) : List Block := (List.replicate 3 zeroBlock).set i (hex 16 1)

theorem garbled_other (i j : Nat) (h : j ≠ i) : nth (garbled i) j = nth (List.replicate 3 zeroBlock) j := by
  simp [nth, garbled, h.symm]

/-- Block 1 of three, and sequences that differ in block 2 only. -/
theorem witness_EncryptionClosedForm :
    1 < (List.replicate 3 zeroBlock).length ∧ 1 < (garbled 2).length ∧
      ∀ j, j ≤ 1 → nth (garbled 2) j = nth (List.replicate 3 zeroBlock) j :=
  ⟨by decide, by decide, fun j hj => garbled_other 2 j (by omega)⟩

theorem witness_DecryptionClosedForm :
    0 < (List.replicate 3 zeroBlock).length ∧ 0 < (garbled 1).length ∧
      ∀ j, j ≤ 0 → nth (garbled 1) j = nth (List.replicate 3 zeroBlock) j :=
  ⟨by decide, by decide, fun j hj => garbled_other 1 j (by omega)⟩

theorem witness_OutputPrefixDependsOnInputPrefix :
    0 ≤ [zeroBlock].length ∧ 1 ≤ [zeroBlock].length := by decide

/-- The first block, with blocks after it, and the last block. -/
theorem witness_CiphertextGarblePropagation :
    ∀ i ∈ [0, 1, 2], (garbled i).length = (List.replicate 3 zeroBlock).length ∧
      i < (List.replicate 3 zeroBlock).length ∧ nth (garbled i) i ≠ nth (List.replicate 3 zeroBlock) i ∧
      ∀ j, j ≠ i → nth (garbled i) j = nth (List.replicate 3 zeroBlock) j := by
  intro i hi
  refine ⟨by simp [garbled], ?_, ?_, garbled_other i⟩
  · revert i; decide
  · revert i; decide

theorem witness_PlaintextGarblePropagation :
    (∀ i ∈ [0, 1, 2], (garbled i).length = (List.replicate 3 zeroBlock).length ∧
      i < (List.replicate 3 zeroBlock).length ∧ nth (garbled i) i ≠ nth (List.replicate 3 zeroBlock) i ∧
      ∀ j, j ≠ i → nth (garbled i) j = nth (List.replicate 3 zeroBlock) j) ∧
      hex 16 1 ≠ zeroBlock ∧ 2 < (List.replicate 3 zeroBlock).length :=
  ⟨witness_CiphertextGarblePropagation, by decide, by decide⟩

theorem witness_AffineCipherConfinesGarble (k : Key) :
    Affine ((small tcRot).blockDecrypt k) ∧ (garbled 1).length = (List.replicate 3 zeroBlock).length ∧
      1 < (List.replicate 3 zeroBlock).length ∧ nth (garbled 1) 1 ≠ nth (List.replicate 3 zeroBlock) 1 ∧
      ∀ j, j ≠ 1 → nth (garbled 1) j = nth (List.replicate 3 zeroBlock) j := by
  refine ⟨fun a b => ?_, by simp [garbled], by decide, by decide, garbled_other 1⟩
  ext1 j hj
  show (Vector.ofFn _)[j] = (Vector.ofFn _)[j]
  simp [Config.blockDecrypt, small, tcRot, blockXor, zeroBlock]

theorem witness_IvChangeOnDecryption : hex 16 1 ≠ zeroBlock ∧ 0 < [zeroBlock].length := by decide

/-- A second state with the same operands, and another `PQ`. -/
theorem witness_IgeOutcomeDependsOnOperandsOnly :
    ∃ t u t' u' : State,
      igeReady Config.machine oneBlock = true ∧
      igeReady Config.machine { oneBlock with pq := ⟨7, true⟩ } = true ∧ oneBlock.len.value % 16 = 0 ∧
      (∀ a, a < oneBlock.len.value → ({ oneBlock with pq := ⟨7, true⟩ } : State).ibuf.read a = oneBlock.ibuf.read a) ∧
      exec .encryptIge oneBlock = .next t ∧ igeRun Config.machine (oneBlock.len.value / 16 + 1) t = .next u ∧
      exec .encryptIge { oneBlock with pq := ⟨7, true⟩ } = .next t' ∧
      igeRun Config.machine (oneBlock.len.value / 16 + 1) t' = .next u' :=
  ⟨_, _, _, _, oneBlock_ready, oneBlock_ready, rfl, fun _ _ => rfl, acceptIge_of_ready _ oneBlock_ready,
    run_oneBlock _ _ zeroBlock rfl (by decide),
    acceptIge_of_ready (s := { oneBlock with pq := ⟨7, true⟩ }) _ oneBlock_ready,
    run_oneBlock _ _ zeroBlock rfl (by decide)⟩

theorem witness_FactorizationEndsAsThePseudocodeSays :
    ∀ n : U64, factReady (factIdle n) = true := fun _ => by
  rw [factReady_iff]; exact (show statusBusy 0 = false by decide)

theorem witness_FactorizationWorkIsBounded :
    factReady (factIdle 35) = true ∧ ∃ t, exec .factorizePqPair (factIdle 35) = .next t :=
  ⟨rfl, _, acceptFact_of_ready (cfg := Config.machine) (s := factIdle 35) rfl⟩

/-- A search for 15 in its first batch. -/
def search15 : Search := ⟨15, 1, 0, 0, 2, 2, 2, 1, 1⟩

theorem search15_ranges (g j : Nat) (hg : g ∣ 15) :
    SearchRanges Config.machine 15 { search15 with g := g, j := j } :=
  ⟨rfl, show 15 % 2 = 1 by decide, show 3 ≤ 15 by decide, show 1 ≤ 1 by decide, show 1 ≤ 8 by decide,
    show 0 < 20 by decide, show 2 < 15 by decide, show 2 < 15 by decide, show 2 < 15 by decide,
    show 1 < 15 by decide, hg⟩

theorem direct_inv (n : U64) (h : n.toNat < 2 ∨ n.toNat % 2 = 0) (r : Search) :
    Inv Config.machine (factBusy n .direct r) :=
  inv_of_small _ (show smallInv (factBusy 0 .direct Search.reset) = true by decide) fun ph hp => by cases hp; exact h

theorem batch_inv : Inv Config.machine (factBusy 15 .batch search15) :=
  inv_of_small _ (by decide) fun ph hp => by cases hp; exact ⟨search15_ranges 1 0 (by decide), by decide⟩

theorem found_inv : Inv Config.machine (factBusy 15 .found { search15 with g := 3, j := 1 }) :=
  inv_of_small _ (by decide) fun ph hp => by
    cases hp; exact ⟨search15_ranges 3 1 (by decide), by decide, by decide⟩

theorem exhausted_inv : Inv Config.machine (factBusy 15 .exhausted { search15 with c := 8 }) :=
  inv_of_small _ (by decide) fun ph hp => by
    cases hp
    exact ⟨⟨rfl, by decide, by decide, by decide, by show 8 ≤ 8; decide, by show 0 < 20; decide, by decide,
      by decide, by decide, by decide, by decide⟩, rfl⟩

theorem witness_InvalidInputExactlyBelowTwo :
    (Inv Config.machine (factBusy 1 .direct Search.reset) ∧ (1 : U64).toNat < 2) ∧
      (Inv Config.machine (factBusy 2 .direct Search.reset) ∧ ¬(2 : U64).toNat < 2) ∧
      Inv Config.machine (factBusy 15 .batch search15) ∧ (factBusy 15 .batch search15).factOp.isSome = true :=
  ⟨⟨direct_inv _ (by decide) _, by decide⟩, ⟨direct_inv _ (by decide) _, by decide⟩, batch_inv, rfl⟩

theorem witness_PqBelowTwoIsInvalidInput :
    factReady (factIdle 0) = true ∧ (factIdle 0).pq.value.toNat < 2 ∧
      factReady (factIdle 1) = true ∧ (factIdle 1).pq.value.toNat < 2 := by decide

/-- 2, and the greatest even value. -/
theorem witness_EvenPqGivesTwoAndHalf :
    (factReady (factIdle 2) = true ∧ 2 ≤ (factIdle 2).pq.value.toNat ∧ (factIdle 2).pq.value.toNat % 2 = 0) ∧
      factReady (factIdle 0xFFFFFFFFFFFFFFFE) = true ∧ 2 ≤ (factIdle 0xFFFFFFFFFFFFFFFE).pq.value.toNat ∧
        (factIdle 0xFFFFFFFFFFFFFFFE).pq.value.toNat % 2 = 0 := by decide

theorem witness_SuccessfulPairMultipliesToPq :
    (Inv Config.machine (factBusy 4 .direct Search.reset) ∧
        (factUnitStep Config.machine (factBusy 4 .direct Search.reset)).factStatus = 0x02) ∧
      Inv Config.machine (factBusy 15 .found { search15 with g := 3, j := 1 }) ∧
        (factUnitStep Config.machine (factBusy 15 .found { search15 with g := 3, j := 1 })).factStatus = 0x02 ∧
        (factBusy 15 .found { search15 with g := 3, j := 1 }).pq.value.toNat % 2 = 1 ∧
        (factBusy 15 .found { search15 with g := 3, j := 1 }).factOp = some .found :=
  ⟨⟨direct_inv _ (by decide) _, rfl⟩, found_inv, rfl, by decide, rfl⟩

theorem witness_SemiprimeSuccessGivesItsPrimes :
    (Nat.Prime 2 ∧ Nat.Prime 3 ∧ 2 ≤ 3 ∧ wholeFactorize 2 8 20 (2 * 3) = .pair 2 3) ∧
      Nat.Prime 5 ∧ 3 ≤ 5 ∧ wholeFactorize 2 8 20 (3 * 5) = .pair 3 5 :=
  ⟨⟨by norm_num, by norm_num, by norm_num, by decide⟩, by norm_num, by norm_num, by decide⟩

theorem witness_OddPrimeFailsForEverySchedule : Nat.Prime 3 ∧ 3 % 2 = 1 := by norm_num

theorem witness_ReplayMeetsADivisor : 1 < 3 ∧ (wholeBatch 3 1 2 1 2 1).2 = 0 := by decide

theorem witness_FactStepKeepsRegisterRanges :
    (factBusy 15 .batch search15).factOp = some .batch ∧ FactInv Config.machine (15 : U64).toNat .batch search15 ∧
      (factUnitStep Config.machine (factBusy 15 .batch search15)).factOp = some .batch :=
  ⟨rfl, ⟨search15_ranges 1 0 (by decide), by decide⟩, rfl⟩

theorem witness_CommandToBusyUnitIsRefused :
    statusBusy (busyOne .encrypt).igeStatus = true ∧ statusBusy (factBusy 15 .batch search15).factStatus = true := by
  decide

/-- Each clause: `LEN` = 80 beyond a buffer of 64 bytes; a byte of `IBUF` without a value; all operands with `LEN` = 64,
and a misaligned `LEN` with nothing else; `LEN` = 0 with neither `KEY` nor `IV` written. -/
theorem witness_IdleUnitRefusesOnlyMissingOperands :
    (statusBusy (igeIdle 80 []).igeStatus = false ∧ (igeIdle 80 []).len.value % 16 = 0 ∧
        fitsBuffer (small tcAdd) (igeIdle 80 []).len.value = false) ∧
      (statusBusy (igeIdle 32 [zeroBlock]).igeStatus = false ∧ (igeIdle 32 [zeroBlock]).len.value % 16 = 0 ∧
        fitsBuffer (small tcAdd) (igeIdle 32 [zeroBlock]).len.value = true ∧
        (igeIdle 32 [zeroBlock]).ibuf.hasBytes 0 32 = false) ∧
      (fitsBuffer (small tcAdd) (igeIdle 64 (List.replicate 4 zeroBlock)).len.value = true ∧
        (igeIdle 64 (List.replicate 4 zeroBlock)).ibuf.hasBytes 0 64 = true) ∧
      (let s : State := { State.reset with len := ⟨15, true⟩ }
       statusBusy s.igeStatus = false ∧ s.len.value % 16 ≠ 0 ∧ s.key.written = false) ∧
      (let s : State := { State.reset with len := ⟨0, true⟩ }
       statusBusy s.igeStatus = false ∧ s.len.value = 0 ∧ s.key.written = false ∧ s.iv.written = false) := by decide

theorem witness_IdleFactUnitAcceptsEveryPq :
    statusBusy State.reset.factStatus = false ∧ State.reset.pq.written = false ∧
      statusBusy (factBusy 15 .batch search15).factStatus = true := by decide

/-- Operands written for each command, and for a step of each unit: `LEN` misaligned with nothing else written, and a
block to come; other registers unwritten throughout. -/
theorem witness_WrittenCommandsIgnoreOperandResetValues :
    (let s : State := { State.reset with len := ⟨15, true⟩ }
     operandsWritten .encryptIge s = true ∧ operandsWritten .decryptIge s = true ∧
      (∃ t, exec .encryptIge s = .next t) ∧ ∃ t, exec .decryptIge s = .next t) ∧
      operandsWritten .factorizePqPair (factIdle 1) = true ∧ (∃ t, exec .factorizePqPair (factIdle 1) = .next t) ∧
      operandsWritten .encryptIge (busyOne .decrypt) = true ∧
      (∃ t, igeUnitStep (small tcAdd) (busyOne .decrypt) = .next t) ∧ (busyOne .decrypt).pq.written = false ∧
      operandsWritten .factorizePqPair (factBusy 15 .batch search15) = true ∧
      (factBusy 15 .batch search15).key.written = false :=
  ⟨⟨rfl, rfl, ⟨_, rfl⟩, ⟨_, rfl⟩⟩, rfl, ⟨_, rfl⟩, rfl, ⟨_, busyOne_step _ _⟩, rfl, rfl, rfl⟩

/-- The greatest `PQ` and the greatest `LEN` of 8 bits, the least numbers that need more, and the last byte of a
buffer of 64. -/
theorem witness_OperandsOfABusyUnitAreNotWritten :
    18446744073709551615 < 2 ^ 64 ∧ 2 ^ 64 ≤ 18446744073709551616 ∧ 255 < 2 ^ (small tcAdd).lenW ∧
      2 ^ (small tcAdd).lenW ≤ 256 ∧ [(0 : Byte)] ≠ [] ∧
      addressesExist (small tcAdd) 63 [(0 : Byte)].length = true ∧
      statusBusy (busyOne .encrypt).igeStatus = true ∧ statusBusy (busyOne .encrypt).factStatus = false ∧
      statusBusy (factBusy 15 .batch search15).factStatus = true ∧
      statusBusy (factBusy 15 .batch search15).igeStatus = false := by decide

/-- One byte past a buffer of 64 and up to its end; the fault also on a busy unit (log 24), and no bytes to a busy unit
and past the end (log 26). -/
theorem witness_WrbufStoresItsBytes :
    addressesExist (small tcAdd) 63 [(0 : Byte), 1].length = false ∧
      addressesExist (small tcAdd) 62 [(0 : Byte), 1].length = true ∧ statusBusy State.reset.igeStatus = false ∧
      statusBusy (busyOne .encrypt).igeStatus = true ∧
      hostAction (small tcAdd) (.wrIbuf 63 [0, 1]) (busyOne .encrypt) = .fault (.noSuchAddress .ibuf 64) ∧
      hostAction (small tcAdd) (.wrIbuf 65 []) (busyOne .encrypt) = .next (busyOne .encrypt) :=
  ⟨by decide, by decide, by decide, by decide, rfl, rfl⟩

/-- After the host has read success. -/
def igeResult : State :=
  { igeIdle 16 [zeroBlock] with igeStatus := 0x02, obuf := bufferOf [zeroBlock], blk := 1, igeSeen := true }

def factResult : State := { factIdle 6 with factStatus := 0x02, p := ⟨2, true⟩, q := ⟨3, true⟩, factSeen := true }

/-- Before and after the host has read success; the last read is of one byte that holds a value and one that does
not. -/
theorem witness_ResultsAreReadAfterSuccessOnly :
    addressesExist (small tcAdd) 0 16 = true ∧ 16 ≠ 0 ∧ addressesExist (small tcAdd) 64 0 = true ∧
      igeStatusLegal 0x06 = true ∧ factStatusLegal 0x0E = true ∧
      State.reset.igeSeen = false ∧ State.reset.factSeen = false ∧
      igeResult.igeSeen = true ∧ igeResult.obuf.hasBytes 0 16 = true ∧
      addressesExist (small tcAdd) 15 2 = true ∧ igeResult.obuf.hasBytes 15 2 = false ∧
      factResult.factSeen = true := by decide

/-- Bytes of a busy unit, no bytes at the end of the buffer (log 26), and bytes that nothing has written. -/
theorem witness_ReadBackReturnsWhatWasWritten :
    addressesExist (small tcAdd) 0 16 = true ∧ (busyOne .encrypt).ibuf.hasBytes 0 16 = true ∧
      statusBusy (busyOne .encrypt).igeStatus = true ∧
      addressesExist (small tcAdd) 64 0 = true ∧ State.reset.ibuf.hasBytes 64 0 = true ∧
      State.reset.ibuf.hasBytes 0 16 = false := by decide

/-- The statement has no hypothesis on the state; here the byte exists and the unit is busy (log 17). -/
theorem witness_ReadOnlyWritesHaveNoEffect :
    addressesExist (small tcAdd) 63 1 = true ∧ statusBusy (busyOne .encrypt).igeStatus = true ∧
      nextIs (hostAction (small tcAdd) (.wrReadOnly (.obuf 63)) (busyOne .encrypt))
        (fun t => decide (t = busyOne .encrypt)) = true := by decide

theorem witness_ResetLeavesNoValue :
    ({ busyOne .encrypt with turns := [.host], script := [.reset] } : State).turns = .host :: [] ∧
      ({ busyOne .encrypt with turns := [.host], script := [.reset] } : State).script = .reset :: [] := ⟨rfl, rfl⟩

theorem igeResult_inv (a : List HostAction) (ts : List Agent) :
    Inv Config.machine { igeResult with script := a, turns := ts } :=
  inv_of_idle _ (show smallInv igeResult = true by decide) rfl

theorem factResult_inv (a : List HostAction) (ts : List Agent) :
    Inv Config.machine { factResult with script := a, turns := ts } :=
  inv_of_idle _ (show smallInv factResult = true by decide) rfl

/-- Waiting for a busy IGE unit with a block to come, and for a FACT unit that has completed. -/
theorem witness_WaitEnds :
    (Inv Config.machine { busyOne .encrypt with script := [.wait .ige] } ∧
        statusOf .ige { busyOne .encrypt with script := [.wait .ige] } ≠ 0) ∧
      Inv Config.machine { factResult with script := [.wait .fact] } ∧
        statusOf .fact { factResult with script := [.wait .fact] } ≠ 0 :=
  ⟨⟨inv_of_idle _ (by decide) rfl, by decide⟩, factResult_inv _ _, by decide⟩

theorem witness_StepKeepsTheInvariant :
    Inv Config.machine (busyOne .encrypt) ∧ ∃ t, step (busyOne .encrypt) = .next t :=
  ⟨busyOne_inv _, _, busyOne_machine_step⟩

theorem witness_StatusRegistersStayLegal :
    State.reset.igeStatus ∈ [0x00, 0x01, 0x02, 0x06] ∧ State.reset.factStatus ∈ [0x00, 0x01, 0x02, 0x0A, 0x0E] ∧
      ∃ t, step State.reset = .next t := ⟨by decide, by decide, _, rfl⟩

theorem witness_BuffersStayCanonical :
    (busyOne .encrypt).ibuf.wf = true ∧ (busyOne .encrypt).obuf.wf = true ∧
      ∃ t, step (busyOne .encrypt) = .next t := ⟨by decide, by decide, _, busyOne_machine_step⟩

/-- A permitted action and one that breaks a duty, each in a state that meets the invariant. -/
theorem witness_OnlyABreachOfDutyStopsTheMachine :
    (Inv Config.machine { igeResult with script := [.rd .igeStatus], turns := [.host] } ∧
        permitted Config.machine (.rd .igeStatus) { igeResult with script := [.rd .igeStatus], turns := [.host] } =
          true) ∧
      Inv Config.machine { igeResult with script := [.rd .p], turns := [.host] } ∧
        (takeTurn { igeResult with script := [.rd .p], turns := [.host] }).1 = .host ∧
        permitted Config.machine (.rd .p) { igeResult with script := [.rd .p], turns := [.host] } = false :=
  ⟨⟨igeResult_inv _ _, rfl⟩, igeResult_inv _ _, rfl, rfl⟩

theorem witness_UnitStepsCommute :
    ∃ t, igeUnitStep (small tcAdd) { busyOne .encrypt with factOp := some .batch, search := search15 } = .next t :=
  ⟨_, igeUnitStep_block (c := .encrypt) (input := zeroBlock) rfl (by decide) (by show 0 < 1; decide)
    (by show (bufferOf [zeroBlock]).readBlock 0 = _; decide)⟩

theorem witness_UnitStepsWriteOnlyTheirOwnState : ∃ t, igeUnitStep (small tcAdd) (busyOne .decrypt) = .next t :=
  ⟨_, busyOne_step _ _⟩

/-- The host's turn with one action. -/
def acts (a : HostAction) (s : State) : State := { s with script := [a], turns := [.host] }

/-- A write of each operand, and a reset, that changes it. -/
theorem witness_OperandsAreWrittenByTheHostOnly :
    (∃ t, step (acts (.wrKey (Vector.replicate 32 0)) State.reset) = .next t ∧ t.key ≠ State.reset.key) ∧
      (∃ t, step (acts (.wrIv (Vector.replicate 32 0)) State.reset) = .next t ∧ t.iv ≠ State.reset.iv) ∧
      (∃ t, step (acts (.wrLen 16) State.reset) = .next t ∧ t.len ≠ State.reset.len) ∧
      (∃ t, step (acts (.wrPq 6) State.reset) = .next t ∧ t.pq ≠ State.reset.pq) ∧
      (∃ t, step (acts (.wrIbuf 0 [1]) State.reset) = .next t ∧ t.ibuf ≠ State.reset.ibuf) ∧
      ∃ t, step (acts .reset (factIdle 6)) = .next t ∧ t.pq ≠ (factIdle 6).pq := by
  have hl : step (acts (.wrLen 16) State.reset) = .next { State.reset with len := ⟨16, true⟩ } := by
    show writeLen Config.machine 16 State.reset = _
    unfold writeLen; rw [lenWritten_fits _ (machine_lenW 16 (le_refl _))]; rfl
  have hb : step (acts (.wrIbuf 0 [1]) State.reset) = .next { State.reset with ibuf := [(0, 1)] } := by
    show writeIbuf Config.machine 0 [1] State.reset = _
    unfold writeIbuf
    rw [if_neg (by decide), if_pos ((addressesExist_iff _ _ _).2 (Or.inr fun c hc => by
      have := machine_bufBytes_ge c hc; simp; omega))]
    rfl
  exact ⟨⟨_, rfl, by decide⟩, ⟨_, rfl, by decide⟩, ⟨_, hl, by decide⟩, ⟨_, rfl, by decide⟩, ⟨_, hb, by decide⟩,
    ⟨_, rfl, by decide⟩⟩

theorem witness_ResultsAreWrittenAtSuccessOnly :
    (∃ t, step { factBusy 4 .direct Search.reset with turns := [.factUnit] } = .next t ∧ t.p ≠ State.reset.p) ∧
      ∃ t, step (acts .reset factResult) = .next t ∧ t.p ≠ factResult.p := ⟨⟨_, rfl, by decide⟩, _, rfl, by decide⟩

theorem witness_ObufIsWrittenByBlockStepsOnly :
    (∃ t, step (busyOne .encrypt) = .next t ∧ t.obuf.read 15 ≠ (busyOne .encrypt).obuf.read 15) ∧
      ∃ t, step (acts .reset igeResult) = .next t ∧ t.obuf.read 0 ≠ igeResult.obuf.read 0 := by
  refine ⟨⟨_, busyOne_machine_step, ?_⟩, _, rfl, by decide⟩
  obtain ⟨out, nc, np, h⟩ := blockStep_eq Config.machine .encrypt zeroBlock (busyOne .encrypt)
  rw [h]
  show Memory.read (Memory.writeBlock [] 0 out) 15 ≠ none
  rw [Memory.read_writeBlock, dif_pos (by decide)]
  simp

/-- A completed command followed by the next one of its unit, and by a reset. -/
theorem witness_OutcomeStaysUntilNextCommandOrReset :
    (Inv Config.machine (acts (.wrCmd 0x03) factResult) ∧
        ∃ t, step (acts (.wrCmd 0x03) factResult) = .next t ∧ statusDone factResult.factStatus = true ∧
          t.factStatus ≠ factResult.factStatus) ∧
      (Inv Config.machine (acts .reset igeResult) ∧
        ∃ t, step (acts .reset igeResult) = .next t ∧ statusDone igeResult.igeStatus = true ∧
          t.igeStatus ≠ igeResult.igeStatus) ∧
      (Inv Config.machine (acts (.wrCmd 0x02) { igeResult with len := ⟨0, true⟩ }) ∧
        ∃ t, step (acts (.wrCmd 0x02) { igeResult with len := ⟨0, true⟩ }) = .next t ∧
          statusDone igeResult.igeStatus = true ∧ t.igeStatus ≠ igeResult.igeStatus) :=
  ⟨⟨factResult_inv _ _, _, rfl, by decide, by decide⟩, ⟨igeResult_inv _ _, _, rfl, by decide, by decide⟩,
    inv_of_idle _ (by decide) rfl, _, rfl, by decide, by decide⟩

theorem witness_ErrorsWriteNothingButTheStatus :
    (Inv Config.machine busyBad ∧ busyBad.igeOp.isSome = true ∧
        ∃ t, igeUnitStep Config.machine busyBad = .next t ∧ t.igeOp = none ∧ t.igeStatus ≠ 0x02) ∧
      (Inv Config.machine (factBusy 0 .direct Search.reset) ∧
        (factUnitStep Config.machine (factBusy 0 .direct Search.reset)).factOp = none ∧
        (factUnitStep Config.machine (factBusy 0 .direct Search.reset)).factStatus ≠ 0x02) ∧
      Inv Config.machine (factBusy 15 .exhausted { search15 with c := 8 }) ∧
        (factUnitStep Config.machine (factBusy 15 .exhausted { search15 with c := 8 })).factOp = none ∧
        (factUnitStep Config.machine (factBusy 15 .exhausted { search15 with c := 8 })).factStatus ≠ 0x02 :=
  ⟨⟨busyBad_inv, rfl, _, busyBad_step _, rfl, by decide⟩,
    ⟨direct_inv _ (by decide) _, rfl, by decide⟩, exhausted_inv, rfl, by decide⟩

end Sys2Proof.Tests
end

section
/-! The two units of spec/00_scope.md R3: what a step of each writes, that neither step reads what the other writes,
and so that the two steps commute (R212). -/

namespace Sys2Proof.Machine

/-! What each unit writes. -/

/-- The state `s` with all that a step of the IGE unit may write taken from `g`. -/
def withIgeState (g s : State) : State :=
  { s with
    obuf := g.obuf, igeStatus := g.igeStatus, igeOp := g.igeOp, prevCipher := g.prevCipher,
    prevPlain := g.prevPlain, blk := g.blk }

/-- The state `s` with all that a step of the FACT unit may write taken from `f`. -/
def withFactState (f s : State) : State :=
  { s with p := f.p, q := f.q, factStatus := f.factStatus, factOp := f.factOp, search := f.search }

theorem withIgeState_withFactState (g f s : State) :
    withIgeState g (withFactState f s) = withFactState f (withIgeState g s) := rfl

/-- R34, R109: the frame of the IGE unit, case by case of what its step can do. -/
theorem igeUnitStep_frame {cfg : Config} {s t : State} (h : igeUnitStep cfg s = .next t) : t = withIgeState t s := by
  obtain ⟨-, rfl⟩ | ⟨c, -, ⟨-, rfl⟩ | ⟨-, -, input, -, rfl⟩ | ⟨-, -, rfl⟩⟩ := igeUnitStep_cases h
  · rfl
  · rfl
  · rw [blockStep_frame]; rfl
  · rfl

/-- R34, R39: the frame of the FACT unit, case by case of what its step can do. -/
theorem factUnitStep_frame (cfg : Config) (s : State) :
    factUnitStep cfg s = withFactState (factUnitStep cfg s) s := by
  obtain ⟨-, h⟩ | ⟨ph, -, ⟨e, -, h⟩ | ⟨a, b, h⟩ | ⟨ph', r, h⟩⟩ := factUnitStep_cases cfg s <;> rw [h] <;> rfl

/-! What each unit does not read. -/

@[simp] theorem withFactState_key (f s : State) : (withFactState f s).key = s.key := rfl
@[simp] theorem withFactState_prevCipher (f s : State) : (withFactState f s).prevCipher = s.prevCipher := rfl
@[simp] theorem withFactState_prevPlain (f s : State) : (withFactState f s).prevPlain = s.prevPlain := rfl

@[simp] theorem emitBlock_withFactState (out nc np : Block) (f s : State) :
    emitBlock out nc np (withFactState f s) = withFactState f (emitBlock out nc np s) := rfl

/-- A block step computes from `KEY`, the chaining values and its input alone. -/
theorem blockStep_withFactState (cfg : Config) (c : IgeCommand) (input : Block) (f s : State) :
    blockStep cfg c input (withFactState f s) = withFactState f (blockStep cfg c input s) := by
  cases c with
  | encrypt => simp [blockStep, encryptStep]
  | decrypt => simp [blockStep, decryptStep]

theorem igeUnitStep_idle {cfg : Config} {s : State} (h : s.igeOp = none) : igeUnitStep cfg s = .next s := by
  simp [igeUnitStep, h]

/-- A step of the IGE unit neither reads nor writes what the FACT unit writes. -/
theorem igeUnitStep_withFactState {cfg : Config} {s t : State} (f : State) (h : igeUnitStep cfg s = .next t) :
    igeUnitStep cfg (withFactState f s) = .next (withFactState f t) := by
  obtain ⟨h0, rfl⟩ | ⟨c, h0, ⟨ha, rfl⟩ | ⟨ha, hb, input, hi, rfl⟩ | ⟨ha, hb, rfl⟩⟩ := igeUnitStep_cases h
  · exact igeUnitStep_idle (s := withFactState f _) h0
  · exact igeUnitStep_raise (s := withFactState f s) h0 ha
  · rw [← blockStep_withFactState]
    exact igeUnitStep_block (s := withFactState f s) h0 ha hb hi
  · exact igeUnitStep_complete (s := withFactState f s) h0 ha hb

theorem directStep_withIgeState (g s : State) :
    directStep (withIgeState g s) = withIgeState g (directStep s) := by
  by_cases h : s.pq.value.toNat < 2
  · rw [directStep_below h, directStep_below (s := withIgeState g s) h]; rfl
  · rw [directStep_even h, directStep_even (s := withIgeState g s) h]; rfl

/-- A step of the FACT unit neither reads nor writes what the IGE unit writes. -/
theorem factUnitStep_withIgeState (cfg : Config) (g s : State) :
    factUnitStep cfg (withIgeState g s) = withIgeState g (factUnitStep cfg s) := by
  have hop : (withIgeState g s).factOp = s.factOp := rfl
  cases h : s.factOp with
  | none => rw [factUnitStep_idle h, factUnitStep_idle (hop.trans h)]
  | some ph =>
    cases ph with
    | direct => rw [factUnitStep_direct h, factUnitStep_direct (hop.trans h), directStep_withIgeState]
    | batch => rw [factUnitStep_batch h, factUnitStep_batch (hop.trans h)]; rfl
    | replay => rw [factUnitStep_replay h, factUnitStep_replay (hop.trans h)]; rfl
    | found => rw [factUnitStep_found h, factUnitStep_found (hop.trans h)]; rfl
    | exhausted => rw [factUnitStep_exhausted h, factUnitStep_exhausted (hop.trans h)]; rfl

/-- The FACT unit steps from `t`, which an IGE step reached from `s`, as it steps from `s`. -/
theorem factUnitStep_after_igeUnitStep {cfg : Config} {s t : State} (h : igeUnitStep cfg s = .next t) :
    factUnitStep cfg t = withFactState (factUnitStep cfg s) t := by
  have ht : t = withIgeState t s := igeUnitStep_frame h
  calc factUnitStep cfg t
      = factUnitStep cfg (withIgeState t s) := congrArg _ ht
    _ = withIgeState t (factUnitStep cfg s) := factUnitStep_withIgeState cfg t s
    _ = withIgeState t (withFactState (factUnitStep cfg s) s) := congrArg _ (factUnitStep_frame cfg s)
    _ = withFactState (factUnitStep cfg s) (withIgeState t s) := withIgeState_withFactState _ _ _
    _ = withFactState (factUnitStep cfg s) t := congrArg _ ht.symm

/-- Settles O45: neither unit reads what the other writes, so each order writes both units' parts. -/
theorem unitStepsCommute : Obligations.UnitStepsCommute := by
  intro cfg s t h
  rw [factUnitStep_after_igeUnitStep h, factUnitStep_frame cfg s]
  exact igeUnitStep_withFactState _ h

/-- Settles O46: the frames of the two units' steps. -/
theorem unitStepsWriteOnlyTheirOwnState : Obligations.UnitStepsWriteOnlyTheirOwnState :=
  ⟨fun _ _ _ h => igeUnitStep_frame h, factUnitStep_frame⟩

end Sys2Proof.Machine
end

section
/-! The search of the FACT unit keeps the ranges of its working registers (spec/10_state.md R32), phase by phase. -/

namespace Sys2Proof.Machine

open Sys2Proof.Safety

section
variable {cfg : Config} {pq : Nat} {r : Search}

theorem searchRanges_startCycle {k : Nat} (h : SearchRanges cfg pq r) (hk : k < cfg.rhoMaxCycles) :
    SearchRanges cfg pq (startCycle k r) :=
  have h1 : 1 < r.n := by have := h.n_ge; omega
  { h with k_lt := hk, x_lt := h.y_lt, ys_lt := h.y_lt, prod_lt := h1 }

/-- The start of a constant sets every register but `N` and `G`. The start value 2 is below `N`, which is at least 3. -/
theorem searchRanges_startConstant {c : Nat} (hn : r.n = pq) (hodd : r.n % 2 = 1) (hge : 3 ≤ r.n) (hg : r.g ∣ r.n)
    (hc : 1 ≤ c) (hc' : c ≤ Config.machine.rhoCLast) :
    SearchRanges Config.machine pq (startConstant Config.machine c r) :=
  have hy : 2 < r.n := hge
  { n_eq := hn, n_odd := hodd, n_ge := hge, c_pos := hc, c_le := hc', k_lt := show 0 < 20 by decide,
    x_lt := hy, y_lt := hy, ys_lt := hy, prod_lt := show 1 < r.n by omega, g_dvd := hg }

theorem searchRanges_startSearch (hodd : pq % 2 = 1) (hge : 3 ≤ pq) (r : Search) :
    SearchRanges Config.machine pq (startSearch Config.machine pq r) :=
  searchRanges_startConstant rfl hodd hge (one_dvd _) (le_refl 1) (by decide)

theorem searchRanges_iterate (h : SearchRanges cfg pq r) : SearchRanges cfg pq (iterate r) :=
  have h0 : 0 < r.n := Nat.zero_lt_of_lt h.x_lt
  { h with y_lt := rhoNext_lt _ _ h0, prod_lt := prodNext_lt _ _ _ h0 }

theorem searchRanges_replayed (h : SearchRanges cfg pq r) : SearchRanges cfg pq (replayed r) :=
  { h with ys_lt := rhoNext_lt _ _ (Nat.zero_lt_of_lt h.x_lt), g_dvd := Nat.gcd_dvd_right _ _ }

/-- Whatever the outcome of a cycle, the ranges hold for the phase that comes next. -/
theorem factInv_endCycle (h : SearchRanges Config.machine pq r) :
    FactInv Config.machine pq (endCycle Config.machine r).1 (endCycle Config.machine r).2 := by
  obtain ⟨hg, hg', he⟩ | ⟨-, -, hk, he⟩ | ⟨-, hc, he⟩ | ⟨-, hc, he⟩ := endCycle_cases Config.machine r <;> rw [he]
  · exact ⟨h, hg, hg'⟩
  · exact ⟨searchRanges_startCycle h hk, Nat.zero_le _⟩
  · exact ⟨searchRanges_startConstant h.n_eq h.n_odd h.n_ge h.g_dvd (by omega) hc, Nat.zero_le _⟩
  · exact ⟨h, le_antisymm h.c_le (not_lt.1 hc)⟩

theorem factInv_batchStep (h : FactInv Config.machine pq .batch r) :
    FactInv Config.machine pq (batchStep Config.machine r).1 (batchStep Config.machine r).2 := by
  obtain ⟨hr, -⟩ := h
  have hgcd : SearchRanges Config.machine pq { r with g := Nat.gcd r.prod r.n } :=
    { hr with g_dvd := Nat.gcd_dvd_right _ _ }
  by_cases hj : r.j < 2 ^ r.k
  · rw [batchStep_iterate _ hj]
    exact ⟨searchRanges_iterate hr, hj⟩
  · by_cases hg : Nat.gcd r.prod r.n = r.n
    · rw [batchStep_toReplay _ (not_lt.1 hj) hg]
      exact ⟨{ hgcd with }, Nat.two_pow_pos _⟩
    · rw [batchStep_endCycle _ (not_lt.1 hj) hg]
      exact factInv_endCycle hgcd

theorem factInv_replayStep (h : FactInv Config.machine pq .replay r) :
    FactInv Config.machine pq (replayStep Config.machine r).1 (replayStep Config.machine r).2 := by
  obtain ⟨hr, -⟩ := h
  by_cases hgo : (replayed r).g ≤ 1 ∧ r.j + 1 < 2 ^ r.k
  · rw [replayStep_continue _ hgo.1 hgo.2]
    exact ⟨searchRanges_replayed hr, hgo.2⟩
  · rw [replayStep_endCycle _ hgo]
    exact factInv_endCycle (searchRanges_replayed hr)

end

theorem directStep_factOp (s : State) : (directStep s).factOp = none := by
  by_cases h : s.pq.value.toNat < 2
  · rw [directStep_below h]; rfl
  · rw [directStep_even h]; rfl

/-- Settles O30, by the phases of the search; the other three phases end the command. -/
theorem factStepKeepsRegisterRanges : Obligations.FactStepKeepsRegisterRanges := by
  intro s ph hop hinv ph' hop'
  cases ph with
  | direct => rw [factUnitStep_direct hop, directStep_factOp] at hop'; cases hop'
  | batch =>
    rw [factUnitStep_batch hop] at hop' ⊢
    obtain rfl := Option.some.inj hop'
    exact factInv_batchStep hinv
  | replay =>
    rw [factUnitStep_replay hop] at hop' ⊢
    obtain rfl := Option.some.inj hop'
    exact factInv_replayStep hinv
  | found => rw [factUnitStep_found hop] at hop'; cases hop'
  | exhausted => rw [factUnitStep_exhausted hop] at hop'; cases hop'

end Sys2Proof.Machine
end

section
/-! What a step of the machine can do to the invariant (spec/10_state.md R28 to R32, spec/20_memory.md R50): one lemma
per event of a unit, then per host action, then the step. -/

namespace Sys2Proof.Machine

open Sys2Proof.Safety

/-- `step_cases` with the taken turn written out. -/
theorem step_cases_turns {s t : State} (h : step s = .next t) :
    ∃ ts,
      ((takeTurn s).1 = .host ∧
        ((s.script = [] ∧ t = { s with turns := ts }) ∨
          ∃ a rest, s.script = a :: rest ∧
            hostAction Config.machine a { s with script := rest, turns := ts } = .next t)) ∨
      ((takeTurn s).1 = .igeUnit ∧ igeUnitStep Config.machine { s with turns := ts } = .next t) ∨
      ((takeTurn s).1 = .factUnit ∧ t = factUnitStep Config.machine { s with turns := ts }) := by
  obtain ⟨ts, hts⟩ : ∃ ts, (takeTurn s).2 = { s with turns := ts } := ⟨_, takeTurn_frame s⟩
  have hc := step_cases h
  rw [hts] at hc
  exact ⟨ts, hc⟩

/-! Buffers. -/

theorem Memory.below_nil (cap : Option Nat) : Memory.below cap [] = true := by cases cap <;> rfl

theorem Memory.below_writeBlock {cap : Option Nat} {m : Memory} {a : Nat} (b : Block) (h : m.below cap = true)
    (ha : ∀ c, cap = some c → a + 16 ≤ c) : (m.writeBlock a b).below cap = true :=
  Memory.below_writeBytes cap _ m a h fun c hc _ => by rw [Vector.length_toList]; exact ha c hc

/-- A block written at the end of a run of bytes makes the run sixteen bytes longer. -/
theorem Memory.hasBytes_writeBlock_end {m : Memory} {a : Nat} (b : Block) (h : m.hasBytes 0 a = true) :
    (m.writeBlock a b).hasBytes 0 (a + 16) = true := by
  rw [Memory.hasBytes_iff] at h ⊢
  intro j hj
  rw [Memory.read_writeBlock]
  split
  · rfl
  · exact h j (by omega)

/-- The block at `BLK` of an aligned operation lies below `LEN` (R94, R95). -/
theorem block_end_le_len {len blk : Nat} (ha : aligned len = true) (hb : blk < blockCount len) :
    16 * blk + 16 ≤ len := by
  have := blockCount_of_aligned ha
  omega

/-! Status words. -/

theorem statusSuccess_of_igeLegal {w : BitVec 8} (h : igeStatusLegal w = true) (hs : statusIsSuccess w = true) :
    w = statusSuccess := by
  revert w; decide

theorem statusSuccess_of_factLegal {w : BitVec 8} (h : factStatusLegal w = true) (hs : statusIsSuccess w = true) :
    w = statusSuccess := by
  revert w; decide

section
variable {cfg : Config} {s t : State}

/-- A busy unit has no success that the host has read. -/
theorem igeSeen_of_busy (h : Inv cfg s) (hop : s.igeOp.isSome = true) : s.igeSeen = false := by
  by_contra hseen
  have hb := h.ige_busy
  rw [h.ige_seen (by simpa using hseen), hop] at hb
  simp at hb

theorem factSeen_of_busy (h : Inv cfg s) (hop : s.factOp.isSome = true) : s.factSeen = false := by
  by_contra hseen
  have hb := h.fact_busy
  rw [h.fact_seen (by simpa using hseen), hop] at hb
  simp at hb

theorem igeOp_ne_some_of_idle (h : Inv cfg s) (hb : statusBusy s.igeStatus = false) (c : IgeCommand) :
    s.igeOp ≠ some c := by
  have := h.ige_busy
  intro hc
  simp [hb, hc] at this

theorem factOp_ne_some_of_idle (h : Inv cfg s) (hb : statusBusy s.factStatus = false) (ph : FactPhase) :
    s.factOp ≠ some ph := by
  have := h.fact_busy
  intro hc
  simp [hb, hc] at this

/-- The invariant speaks of neither the script nor the turns. -/
theorem inv_withSchedule (l : List HostAction) (ts : List Agent) (h : Inv cfg s) :
    Inv cfg { s with script := l, turns := ts } :=
  { h with ige_op := fun c hc => { h.ige_op c hc with } }

/-! The IGE unit. -/

theorem inv_raise_malformed (h : Inv cfg s) (hop : s.igeOp.isSome = true) :
    Inv cfg (raise .ige .malformedInput s) :=
  have hseen : s.igeSeen = false := igeSeen_of_busy h hop
  { h with
    ige_legal := igeStatusLegal_malformed
    ige_busy := statusBusy_failed _
    ige_seen := by simp [hseen]
    ige_op := by simp }

theorem inv_complete_ige (h : Inv cfg s) : Inv cfg (complete .ige s) :=
  { h with
    ige_legal := igeStatusLegal_success
    ige_busy := statusBusy_success
    ige_seen := fun _ => rfl
    ige_op := by simp }

/-- A block step stores the block at `BLK`, which lies below `LEN` and so within the buffer, and extends the output. -/
theorem inv_emitBlock {c : IgeCommand} (out nc np : Block) (h : Inv cfg s) (hop : s.igeOp = some c)
    (ha : aligned s.len.value = true) (hb : s.blk < blockCount s.len.value) : Inv cfg (emitBlock out nc np s) :=
  have hi : IgeInv cfg s := h.ige_op c hop
  have hend : 16 * s.blk + 16 ≤ s.len.value := block_end_le_len ha hb
  { h with
    obuf_wf := Memory.wf_writeBlock _ _ _ h.obuf_wf
    obuf_below := Memory.below_writeBlock out h.obuf_below fun n hn =>
      hend.trans ((fitsBuffer_iff cfg _).1 (hi.fits ha) n hn)
    ige_op := fun _ _ =>
      { hi with
        blk_le := fun _ => hb
        output := fun _ => Memory.hasBytes_writeBlock_end out (hi.output ha) } }

theorem inv_igeUnitStep (h : Inv cfg s) (hstep : igeUnitStep cfg s = .next t) : Inv cfg t := by
  obtain ⟨-, rfl⟩ | ⟨c, hop, ⟨-, rfl⟩ | ⟨ha, hb, input, -, rfl⟩ | ⟨-, -, rfl⟩⟩ := igeUnitStep_cases hstep
  · exact h
  · exact inv_raise_malformed h (by simp [hop])
  · obtain ⟨out, nc, np, he⟩ := blockStep_eq cfg c input s
    rw [he]
    exact inv_emitBlock out nc np h hop ha hb
  · exact inv_complete_ige h

/-! The FACT unit. -/

theorem inv_raise_fact {e : ErrorKind} (he : e = .invalidInput ∨ e = .factorizationFailed) (h : Inv cfg s)
    (hop : s.factOp.isSome = true) : Inv cfg (raise .fact e s) :=
  have hseen : s.factSeen = false := factSeen_of_busy h hop
  { h with
    fact_legal := by rcases he with rfl | rfl; exacts [factStatusLegal_invalid, factStatusLegal_failed]
    fact_busy := statusBusy_failed _
    fact_seen := by simp [hseen]
    fact_result := fun hs => absurd hs (statusFailed_ne_success e)
    fact_op := by simp
    ige_op := fun c hc => { h.ige_op c hc with } }

theorem inv_completeWithPair (a b : Nat) (h : Inv cfg s) : Inv cfg (completeWithPair a b s) :=
  { h with
    fact_legal := factStatusLegal_success
    fact_busy := statusBusy_success
    fact_seen := fun _ => rfl
    fact_result := fun _ => ⟨rfl, rfl⟩
    fact_op := by simp
    ige_op := fun c hc => { h.ige_op c hc with } }

/-- A move of the search to registers in range. -/
theorem inv_withSearch {ph : FactPhase} {r : Search} (h : Inv cfg s) (hop : s.factOp.isSome = true)
    (hr : FactInv cfg s.pq.value.toNat ph r) : Inv cfg { s with factOp := some ph, search := r } :=
  { h with
    fact_busy := h.fact_busy.trans hop
    fact_op := fun _ hph => Option.some.inj hph ▸ hr
    ige_op := fun c hc => { h.ige_op c hc with } }

theorem inv_factUnitStep (h : Inv Config.machine s) : Inv Config.machine (factUnitStep Config.machine s) := by
  obtain ⟨-, he⟩ | ⟨ph, hop, hc⟩ := factUnitStep_cases Config.machine s
  · rwa [he]
  · have hsome : s.factOp.isSome = true := by simp [hop]
    have hranges := factStepKeepsRegisterRanges s ph hop (h.fact_op ph hop)
    obtain ⟨e, hk, he⟩ | ⟨a, b, he⟩ | ⟨ph', r, he⟩ := hc <;> rw [he] at hranges ⊢
    · exact inv_raise_fact hk h hsome
    · exact inv_completeWithPair a b h
    · exact inv_withSearch h hsome (hranges ph' rfl)

/-! Acceptance. -/

theorem inv_startIge (c : IgeCommand) (h : Inv cfg s) (hready : igeReady cfg s = true) :
    Inv cfg (startIge c s) := by
  obtain ⟨-, hbytes⟩ := (igeReady_iff cfg s).1 hready
  cases ha : aligned s.len.value
  · rw [startIge_misaligned ha]
    have vacuous : ∀ {p : Prop}, aligned s.len.value = true → p := fun h' => by simp [ha] at h'
    exact
      { h with
        ige_legal := igeStatusLegal_accepted
        ige_busy := statusBusy_accepted
        ige_seen := by simp
        ige_op := fun _ _ => ⟨vacuous, vacuous, vacuous, vacuous⟩ }
  · rw [startIge_aligned ha]
    exact
      { h with
        ige_legal := igeStatusLegal_accepted
        ige_busy := statusBusy_accepted
        ige_seen := by simp
        ige_op := fun _ _ =>
          { fits := fun _ => (hbytes ha).1, input := fun _ => (hbytes ha).2, blk_le := fun _ => Nat.zero_le _,
            output := fun _ => rfl } }

/-- An accepted factorization: the status is that of a busy unit, whatever search is set up. -/
theorem inv_acceptedFact {ph : FactPhase} {r : Search} (h : Inv cfg s) (hr : FactInv cfg s.pq.value.toNat ph r) :
    Inv cfg { s with factStatus := statusAccepted, factSeen := false, factOp := some ph, search := r } :=
  { h with
    fact_legal := factStatusLegal_accepted
    fact_busy := statusBusy_accepted
    fact_seen := by simp
    fact_result := fun hs => absurd hs (show statusAccepted ≠ statusSuccess by decide)
    fact_op := fun _ hph => Option.some.inj hph ▸ hr
    ige_op := fun c hc => { h.ige_op c hc with } }

theorem inv_startFact (h : Inv Config.machine s) : Inv Config.machine (startFact Config.machine s) := by
  by_cases hd : s.pq.value.toNat < 2 ∨ s.pq.value.toNat % 2 = 0
  · rw [startFact_direct hd]
    exact inv_acceptedFact (r := s.search) h hd
  · rw [startFact_search hd]
    exact inv_acceptedFact h ⟨searchRanges_startSearch (by omega) (by omega) _, Nat.zero_le _⟩

theorem inv_exec {i : Instr} (h : Inv Config.machine s) (hexec : exec i s = .next t) : Inv Config.machine t := by
  obtain ⟨c, -, hready, rfl⟩ | ⟨-, -, rfl⟩ := exec_next hexec
  · exact inv_startIge c h hready
  · exact inv_startFact h

/-! The host. -/

theorem inv_resetEvent (cfg : Config) (s : State) : Inv cfg (resetEvent s) where
  ibuf_wf := rfl
  obuf_wf := rfl
  ibuf_below := Memory.below_nil _
  obuf_below := Memory.below_nil _
  len_width := Nat.two_pow_pos _
  ige_legal := rfl
  fact_legal := rfl
  ige_busy := show statusBusy 0x00 = false by decide
  fact_busy := show statusBusy 0x00 = false by decide
  ige_seen := by simp [State.reset]
  fact_seen := by simp [State.reset]
  fact_result := fun hs => absurd hs (show (0x00 : BitVec 8) ≠ statusSuccess by decide)
  ige_op := by simp [State.reset]
  fact_op := by simp [State.reset]

/-- What only reads keeps the invariant: a success is on record only where the status tells of one. -/
theorem inv_of_sameCore (h : Inv cfg s) (hsame : SameCore s t) (hseen : SeenGrows s t) : Inv cfg t := by
  obtain ⟨hige, hfact⟩ := hseen
  rw [hsame]
  exact
    { h with
      ige_seen := fun ht => (hige ht).elim h.ige_seen (statusSuccess_of_igeLegal h.ige_legal)
      fact_seen := fun ht => (hfact ht).elim h.fact_seen (statusSuccess_of_factLegal h.fact_legal)
      ige_op := fun c hc => { h.ige_op c hc with } }

theorem inv_hostAction {a : HostAction} (h : Inv Config.machine s)
    (hact : hostAction Config.machine a s = .next t) : Inv Config.machine t := by
  obtain ⟨v, -, -, rfl⟩ | ⟨v, -, -, rfl⟩ | ⟨n, -, hidle, rfl⟩ | ⟨n, -, hidle, rfl⟩ | ⟨x, bs, -, hx, hidle, rfl⟩ |
    ⟨w, i, -, -, hexec⟩ | ⟨-, rfl⟩ | ⟨-, -, hsame, hseen, -⟩ := hostAction_cases hact
  · exact { h with ige_op := fun c hc => { h.ige_op c hc with } }
  · exact { h with ige_op := fun c hc => { h.ige_op c hc with } }
  · exact
      { h with
        len_width := lenWritten_lt _ _ _
        ige_op := fun c hc => absurd hc (igeOp_ne_some_of_idle h hidle c) }
  · exact
      { h with
        fact_op := fun ph hph => absurd hph (factOp_ne_some_of_idle h hidle ph)
        ige_op := fun c hc => { h.ige_op c hc with } }
  · have hfits : ∀ c, Config.machine.bufBytes = some c → bs ≠ [] → x + bs.length ≤ c := fun c hc hne =>
      ((addressesExist_iff _ _ _).1 hx).elim (fun h0 => absurd (List.length_eq_zero_iff.1 h0) hne) (· c hc)
    exact
      { h with
        ibuf_wf := Memory.wf_writeBytes _ _ _ h.ibuf_wf
        ibuf_below := Memory.below_writeBytes _ _ _ _ h.ibuf_below hfits
        ige_op := fun c hc => absurd hc (igeOp_ne_some_of_idle h hidle c) }
  · exact inv_exec h hexec
  · exact inv_resetEvent _ _
  · exact inv_of_sameCore h hsame hseen

end

/-- Settles O40: `State.reset` is the state after a reset event in it. -/
theorem resetMeetsTheInvariant : Obligations.ResetMeetsTheInvariant := inv_resetEvent Config.machine State.reset

/-- Settles O41, agent by agent: the host, the IGE unit, the FACT unit. -/
theorem stepKeepsTheInvariant : Obligations.StepKeepsTheInvariant := by
  intro s t h hstep
  obtain ⟨ts, ⟨-, ⟨-, rfl⟩ | ⟨a, rest, -, hact⟩⟩ | ⟨-, hige⟩ | ⟨-, rfl⟩⟩ := step_cases_turns hstep
  · exact inv_withSchedule s.script ts h
  · exact inv_hostAction (inv_withSchedule rest ts h) hact
  · exact inv_igeUnitStep (inv_withSchedule s.script ts h) hige
  · exact inv_factUnitStep (inv_withSchedule s.script ts h)

end Sys2Proof.Machine
end

section
/-! What a step of the machine changes and leaves unchanged: the operands (spec/10_state.md R34, R39), the results
(R26) and the status words (R28, R29). -/

namespace Sys2Proof.Machine

/-! The operands and the results. -/

/-- The operand registers and `IBUF` of `t` are those of `s`. -/
def SameOperands (s t : State) : Prop :=
  t.key = s.key ∧ t.iv = s.iv ∧ t.len = s.len ∧ t.pq = s.pq ∧ t.ibuf = s.ibuf

/-- `P` and `Q` of `t` are those of `s`. -/
def SameResults (s t : State) : Prop := t.p = s.p ∧ t.q = s.q

section
variable {cfg : Config} {s t : State}

/-- Acceptance writes status, seen bits and working registers and nothing else. -/
theorem exec_frame {i : Instr} (h : exec i s = .next t) :
    t = { s with
          igeStatus := t.igeStatus, igeSeen := t.igeSeen, igeOp := t.igeOp, prevCipher := t.prevCipher,
          prevPlain := t.prevPlain, blk := t.blk, factStatus := t.factStatus, factSeen := t.factSeen,
          factOp := t.factOp, search := t.search } := by
  obtain ⟨c, -, -, rfl⟩ | ⟨-, -, rfl⟩ := exec_next h
  · rw [startIge_frame]
  · rw [startFact_frame]

theorem sameOperands_exec {i : Instr} (h : exec i s = .next t) : SameOperands s t := by
  rw [exec_frame h]; exact ⟨rfl, rfl, rfl, rfl, rfl⟩

theorem sameResults_exec {i : Instr} (h : exec i s = .next t) : SameResults s t := by
  rw [exec_frame h]; exact ⟨rfl, rfl⟩

theorem sameOperands_of_sameCore (h : SameCore s t) : SameOperands s t := by
  rw [h]; exact ⟨rfl, rfl, rfl, rfl, rfl⟩

theorem sameResults_of_sameCore (h : SameCore s t) : SameResults s t := by
  rw [h]; exact ⟨rfl, rfl⟩

theorem sameOperands_igeUnitStep (h : igeUnitStep cfg s = .next t) : SameOperands s t := by
  rw [igeUnitStep_frame h]; exact ⟨rfl, rfl, rfl, rfl, rfl⟩

theorem sameResults_igeUnitStep (h : igeUnitStep cfg s = .next t) : SameResults s t := by
  rw [igeUnitStep_frame h]; exact ⟨rfl, rfl⟩

theorem sameOperands_factUnitStep (cfg : Config) (s : State) : SameOperands s (factUnitStep cfg s) := by
  rw [factUnitStep_frame]; exact ⟨rfl, rfl, rfl, rfl, rfl⟩

/-- The kinds of host action, by what they write: operands, what a command's acceptance writes, all of the CORE at
reset, and the host's own record. -/
theorem hostAction_kinds {a : HostAction} (h : hostAction cfg a s = .next t) :
    t = { s with key := t.key, iv := t.iv, len := t.len, pq := t.pq, ibuf := t.ibuf, draws := t.draws } ∨
    (∃ i, exec i s = .next t) ∨ (a = .reset ∧ t = resetEvent s) ∨ SameCore s t := by
  obtain ⟨_, -, -, rfl⟩ | ⟨_, -, -, rfl⟩ | ⟨_, -, -, rfl⟩ | ⟨_, -, -, rfl⟩ | ⟨_, _, -, -, -, rfl⟩ |
    ⟨_, i, -, -, hexec⟩ | hreset | ⟨-, -, hsame, -⟩ := hostAction_cases h
  · exact Or.inl rfl
  · exact Or.inl rfl
  · exact Or.inl rfl
  · exact Or.inl rfl
  · exact Or.inl rfl
  · exact Or.inr (Or.inl ⟨i, hexec⟩)
  · exact Or.inr (Or.inr (Or.inl hreset))
  · exact Or.inr (Or.inr (Or.inr hsame))

/-- No host action but the reset writes `P` or `Q`. -/
theorem sameResults_hostAction {a : HostAction} (h : hostAction cfg a s = .next t) (ha : a ≠ .reset) :
    SameResults s t := by
  obtain hw | ⟨i, hexec⟩ | ⟨hreset, -⟩ | hsame := hostAction_kinds h
  · rw [hw]; exact ⟨rfl, rfl⟩
  · exact sameResults_exec hexec
  · exact absurd hreset ha
  · exact sameResults_of_sameCore hsame

/-! The status words. -/

theorem exec_status {i : Instr} (h : exec i s = .next t) :
    (t.igeStatus = s.igeStatus ∨ t.igeStatus = statusAccepted) ∧
      (t.factStatus = s.factStatus ∨ t.factStatus = statusAccepted) := by
  obtain ⟨c, -, -, rfl⟩ | ⟨-, -, rfl⟩ := exec_next h
  · rw [startIge_frame]; exact ⟨Or.inr rfl, Or.inl rfl⟩
  · rw [startFact_frame]; exact ⟨Or.inl rfl, Or.inr rfl⟩

/-- A host action leaves a status word as it is, or sets it to idle at a reset or to busy at an acceptance. -/
theorem hostAction_status {a : HostAction} (h : hostAction cfg a s = .next t) :
    (t.igeStatus = s.igeStatus ∨ t.igeStatus ∈ [0x00, 0x01]) ∧
      (t.factStatus = s.factStatus ∨ t.factStatus ∈ [0x00, 0x01]) := by
  have accepted : ∀ {w : BitVec 8}, w = statusAccepted → w ∈ [0x00, 0x01] := by rintro _ rfl; decide
  obtain hw | ⟨i, hexec⟩ | ⟨-, rfl⟩ | hsame := hostAction_kinds h
  · rw [hw]; exact ⟨Or.inl rfl, Or.inl rfl⟩
  · obtain ⟨hi, hf⟩ := exec_status hexec
    exact ⟨hi.imp_right accepted, hf.imp_right accepted⟩
  · exact ⟨Or.inr List.mem_cons_self, Or.inr List.mem_cons_self⟩
  · rw [hsame]; exact ⟨Or.inl rfl, Or.inl rfl⟩

theorem igeUnitStep_status (h : igeUnitStep cfg s = .next t) :
    (t.igeStatus = s.igeStatus ∨ t.igeStatus ∈ [0x02, 0x06]) ∧ t.factStatus = s.factStatus := by
  refine ⟨?_, by rw [igeUnitStep_frame h]; rfl⟩
  obtain ⟨-, rfl⟩ | ⟨c, -, ⟨-, rfl⟩ | ⟨-, -, input, -, rfl⟩ | ⟨-, -, rfl⟩⟩ := igeUnitStep_cases h
  · exact Or.inl rfl
  · right; simp [statusFailed_malformed]
  · rw [blockStep_frame]; exact Or.inl rfl
  · right; simp [statusSuccess_eq]

theorem factUnitStep_status (cfg : Config) (s : State) :
    (factUnitStep cfg s).igeStatus = s.igeStatus ∧
      ((factUnitStep cfg s).factStatus = s.factStatus ∨ (factUnitStep cfg s).factStatus ∈ [0x02, 0x0A, 0x0E]) := by
  refine ⟨by rw [factUnitStep_frame]; rfl, ?_⟩
  obtain ⟨-, h⟩ | ⟨ph, -, ⟨e, rfl | rfl, h⟩ | ⟨a, b, h⟩ | ⟨ph', r, h⟩⟩ := factUnitStep_cases cfg s <;> rw [h]
  · exact Or.inl rfl
  · right; simp [statusFailed_invalid]
  · right; simp [statusFailed_failed]
  · right; simp [statusSuccess_eq]
  · exact Or.inl rfl

end

/-- A step leaves each status word as it is or sets it to a legal one, whatever it was. -/
theorem step_status {s t : State} (h : step s = .next t) :
    (t.igeStatus = s.igeStatus ∨ t.igeStatus ∈ [0x00, 0x01, 0x02, 0x06]) ∧
      (t.factStatus = s.factStatus ∨ t.factStatus ∈ [0x00, 0x01, 0x02, 0x0A, 0x0E]) := by
  obtain ⟨ts, ⟨-, ⟨-, rfl⟩ | ⟨a, rest, -, hact⟩⟩ | ⟨-, hige⟩ | ⟨-, rfl⟩⟩ := step_cases_turns h
  · exact ⟨Or.inl rfl, Or.inl rfl⟩
  · obtain ⟨hi, hf⟩ := hostAction_status hact
    exact ⟨hi.imp_right fun hw => List.subset_append_left _ [0x02, 0x06] hw,
      hf.imp_right fun hw => List.subset_append_left _ [0x02, 0x0A, 0x0E] hw⟩
  · obtain ⟨hi, hf⟩ := igeUnitStep_status hige
    exact ⟨hi.imp_right fun hw => List.subset_append_right [0x00, 0x01] _ hw, Or.inl hf⟩
  · obtain ⟨hi, hf⟩ := factUnitStep_status Config.machine { s with turns := ts }
    exact ⟨Or.inl hi, hf.imp_right fun hw => List.subset_append_right [0x00, 0x01] _ hw⟩

/-- Settles O42: a status word after a step is the old one or one that the step sets. -/
theorem statusRegistersStayLegal : Obligations.StatusRegistersStayLegal := by
  intro s t hige hfact h
  obtain ⟨hi, hf⟩ := step_status h
  exact ⟨hi.elim (fun he => he ▸ hige) id, hf.elim (fun he => he ▸ hfact) id⟩

/-- Settles O47: of all that a step can do, only the five host writes and the reset do not keep the operands. -/
theorem operandsAreWrittenByTheHostOnly : Obligations.OperandsAreWrittenByTheHostOnly := by
  intro s t h hne
  have hchanged : ¬ SameOperands s t := by
    rintro ⟨hkey, hiv, hlen, hpq, hibuf⟩
    simp [hkey, hiv, hlen, hpq, hibuf] at hne
  obtain ⟨ts, ⟨hhost, ⟨-, rfl⟩ | ⟨a, rest, hscript, hact⟩⟩ | ⟨-, hige⟩ | ⟨-, rfl⟩⟩ := step_cases_turns h
  · exact absurd ⟨rfl, rfl, rfl, rfl, rfl⟩ hchanged
  · refine ⟨hhost, a, rest, hscript, ?_⟩
    obtain ⟨v, ha, -, rfl⟩ | ⟨v, ha, -, rfl⟩ | ⟨n, ha, -, rfl⟩ | ⟨n, ha, -, rfl⟩ | ⟨x, bs, ha, -, -, rfl⟩ |
      ⟨w, i, -, -, hexec⟩ | ⟨ha, -⟩ | ⟨-, -, hsame, -⟩ := hostAction_cases hact
    · exact Or.inr (Or.inl ⟨v, ha, rfl⟩)
    · exact Or.inr (Or.inr (Or.inl ⟨v, ha, rfl⟩))
    · exact Or.inr (Or.inr (Or.inr (Or.inl ⟨n, ha, rfl⟩)))
    · exact Or.inr (Or.inr (Or.inr (Or.inr (Or.inl ⟨n, ha, rfl⟩))))
    · exact Or.inr (Or.inr (Or.inr (Or.inr (Or.inr ⟨x, bs, ha, rfl⟩))))
    · exact absurd (sameOperands_exec hexec) hchanged
    · exact Or.inl ha
    · exact absurd (sameOperands_of_sameCore hsame) hchanged
  · exact absurd (sameOperands_igeUnitStep hige) hchanged
  · exact absurd (sameOperands_factUnitStep _ _) hchanged

/-- Settles O48: of all that a step can do, only `completeWithPair` and the reset do not keep the results. -/
theorem resultsAreWrittenAtSuccessOnly : Obligations.ResultsAreWrittenAtSuccessOnly := by
  intro s t h hne
  have hchanged : ¬ SameResults s t := fun ⟨hp, hq⟩ => hne.elim (· hp) (· hq)
  obtain ⟨ts, ⟨hhost, ⟨-, rfl⟩ | ⟨a, rest, hscript, hact⟩⟩ | ⟨-, hige⟩ | ⟨hturn, rfl⟩⟩ := step_cases_turns h
  · exact absurd ⟨rfl, rfl⟩ hchanged
  · by_cases ha : a = .reset
    · exact Or.inr ⟨hhost, rest, ha ▸ hscript⟩
    · exact absurd (sameResults_hostAction hact ha) hchanged
  · exact absurd (sameResults_igeUnitStep hige) hchanged
  · obtain ⟨-, he⟩ | ⟨ph, hop, ⟨e, -, he⟩ | ⟨p, q, he⟩ | ⟨ph', r, he⟩⟩ :=
        factUnitStep_cases Config.machine { s with turns := ts } <;> rw [he] at hchanged ⊢
    · exact absurd ⟨rfl, rfl⟩ hchanged
    · exact absurd ⟨rfl, rfl⟩ hchanged
    · exact Or.inl ⟨hturn, Option.isSome_of_eq_some hop, rfl, statusSuccess_eq, rfl, rfl⟩
    · exact absurd ⟨rfl, rfl⟩ hchanged

end Sys2Proof.Machine
end

section
/-! The host's side: writes to read-only places, read-backs and the reset event (spec/10_state.md R34, R35, R37). -/

namespace Sys2Proof.Machine

/-- Settles O37: each of these writes is the identity of `writeReadOnly`, for a byte of `OBUF` because it exists. -/
theorem readOnlyWritesHaveNoEffect : Obligations.ReadOnlyWritesHaveNoEffect :=
  fun _ _ _ haddr => ⟨rfl, rfl, rfl, rfl, if_pos haddr, rfl⟩

/-- The host's turn with an action to come is that action, on the state without the turn and the action. -/
theorem step_of_host_turn {s : State} {a : HostAction} {rest : List HostAction} {ts : List Agent}
    (hturns : s.turns = .host :: ts) (hscript : s.script = a :: rest) :
    step s = hostAction Config.machine a { s with script := rest, turns := ts } := by
  simp [step, takeTurn_cons s _ _ hturns, agentStep, hostStep, hscript]

/-- Settles O38: what `resetEvent` leaves, field by field. -/
theorem resetLeavesNoValue : Obligations.ResetLeavesNoValue := by
  intro s rest ts hturns hscript
  refine ⟨resetEvent { s with script := rest, turns := ts }, step_of_host_turn hturns hscript, ?_⟩
  exact ⟨rfl, rfl, rfl, rfl, rfl, rfl, rfl, rfl, rfl, rfl, fun _ => ⟨rfl, rfl⟩, rfl, rfl, rfl, rfl⟩

/-- A read of bytes that hold values answers them, one per address. -/
theorem Memory.readBytes_of_hasBytes {m : Memory} {a n : Nat} (h : m.hasBytes a n = true) :
    ∃ bs, m.readBytes a n = some bs ∧ bs.length = n ∧ ∀ j, j < n → bs[j]? = m.read (a + j) := by
  refine ⟨_, if_pos h, by simp, fun j hj => ?_⟩
  simp [hj, Memory.read_of_hasBytes h hj]

theorem Memory.readBytes_eq_none {m : Memory} {a n : Nat} (h : m.hasBytes a n = false) :
    m.readBytes a n = none := by
  simp [Memory.readBytes, h]

theorem readIbuf_of_addressesExist {cfg : Config} {a n : Nat} (h : addressesExist cfg a n = true) (s : State) :
    readIbuf cfg a n s = returnBytes .ibuf (s.ibuf.readBytes a n) s := by
  simp [readIbuf, h]

/-- Settles O52: a register answers its value, `IBUF` its bytes, and a byte without a value is refused. -/
theorem readBackReturnsWhatWasWritten : Obligations.ReadBackReturnsWhatWasWritten := by
  intro cfg s a n
  refine ⟨rfl, rfl, rfl, rfl, fun haddr hbytes => ?_, fun haddr hmissing => ?_⟩
  · obtain ⟨bs, hread, hlen, hval⟩ := Memory.readBytes_of_hasBytes hbytes
    refine ⟨bs, ?_, hlen, hval⟩
    calc hostAction cfg (.rdIbuf a n) s
        = returnBytes .ibuf (s.ibuf.readBytes a n) s := readIbuf_of_addressesExist haddr s
      _ = .next { s with readData := some (.buffer bs) } := by rw [hread]; rfl
  · calc hostAction cfg (.rdIbuf a n) s
        = returnBytes .ibuf (s.ibuf.readBytes a n) s := readIbuf_of_addressesExist haddr s
      _ = .refused (.noValue .ibuf) := by rw [Memory.readBytes_eq_none hmissing]; rfl

end Sys2Proof.Machine
end

section
/-! The memory (spec/20_memory.md R50, R59, R60): what `WRBUF` leaves in `IBUF`, and what a step of the machine can do
to each of the two buffers. -/

namespace Sys2Proof.Machine

/-! `WRBUF`. -/

theorem writeOperand_of_idle {u : UnitId} {pl : Place} {s w : State} (h : statusBusy (statusOf u s) = false) :
    writeOperand u pl s w = .next w := by
  simp [writeOperand, h]

theorem writeIbuf_of_no_address {cfg : Config} {a : Nat} {bs : List Byte}
    (h : addressesExist cfg a bs.length = false) (s : State) :
    writeIbuf cfg a bs s = .fault (.noSuchAddress .ibuf (a + bs.length - 1)) := by
  cases bs with
  | nil => simp [addressesExist] at h
  | cons b bs => rw [writeIbuf, if_neg (by simp), if_neg (by rw [h]; simp)]

/-- For no bytes this agrees with the clause of `writeIbuf` that leaves the state. -/
theorem writeIbuf_of_idle {cfg : Config} {a : Nat} {bs : List Byte} {s : State}
    (haddr : addressesExist cfg a bs.length = true) (hidle : statusBusy s.igeStatus = false) :
    writeIbuf cfg a bs s = .next { s with ibuf := s.ibuf.writeBytes a bs } := by
  cases bs with
  | nil => rfl
  | cons b bs => rw [writeIbuf, if_neg (by simp), if_pos haddr, writeOperand_of_idle (u := .ige) hidle]

theorem Memory.read_writeBytes_inside {bs : List Byte} {j : Nat} (m : Memory) (a : Nat) (h : j < bs.length) :
    (m.writeBytes a bs).read (a + j) = bs[j]? := by
  rw [Memory.read_writeBytes, if_pos (by omega), Nat.add_sub_cancel_left]

theorem Memory.read_writeBytes_outside {bs : List Byte} {a x : Nat} (m : Memory)
    (h : x < a ∨ a + bs.length ≤ x) : (m.writeBytes a bs).read x = m.read x := by
  rw [Memory.read_writeBytes, if_neg (by omega)]

/-- Settles O35: the fault, the transfer of no bytes, and the store with its frame. -/
theorem wrbufStoresItsBytes : Obligations.WrbufStoresItsBytes := by
  intro cfg s a bs
  refine ⟨fun haddr => writeIbuf_of_no_address haddr s, ?_, fun haddr hidle => ?_⟩
  · rintro rfl; rfl
  · exact ⟨_, writeIbuf_of_idle haddr hidle, rfl, fun j hj => Memory.read_writeBytes_inside _ _ hj,
      fun x hx => Memory.read_writeBytes_outside _ hx⟩

/-! What a step does to each buffer. -/

section
variable {cfg : Config} {s t : State}

/-- No host action but the reset writes `OBUF`. -/
theorem hostAction_obuf {a : HostAction} (h : hostAction cfg a s = .next t) :
    t.obuf = s.obuf ∨ (a = .reset ∧ t.obuf = []) := by
  obtain hw | ⟨i, hexec⟩ | ⟨hreset, rfl⟩ | hsame := hostAction_kinds h
  · rw [hw]; exact Or.inl rfl
  · rw [exec_frame hexec]; exact Or.inl rfl
  · exact Or.inr ⟨hreset, rfl⟩
  · rw [hsame]; exact Or.inl rfl

/-- A host action leaves `IBUF`, writes bytes to it, or empties it at a reset. -/
theorem hostAction_ibuf {a : HostAction} (h : hostAction cfg a s = .next t) :
    t.ibuf = s.ibuf ∨ (∃ x bs, t.ibuf = s.ibuf.writeBytes x bs) ∨ t.ibuf = [] := by
  obtain ⟨v, -, -, rfl⟩ | ⟨v, -, -, rfl⟩ | ⟨n, -, -, rfl⟩ | ⟨n, -, -, rfl⟩ | ⟨x, bs, -, -, -, rfl⟩ |
    ⟨w, i, -, -, hexec⟩ | ⟨-, rfl⟩ | ⟨-, -, hsame, -⟩ := hostAction_cases h
  · exact Or.inl rfl
  · exact Or.inl rfl
  · exact Or.inl rfl
  · exact Or.inl rfl
  · exact Or.inr (Or.inl ⟨x, bs, rfl⟩)
  · rw [exec_frame hexec]; exact Or.inl rfl
  · exact Or.inr (Or.inr rfl)
  · rw [hsame]; exact Or.inl rfl

/-- The IGE unit writes `OBUF` only in a block step: the block at `BLK`, below `LEN` (R94, R95). -/
theorem igeUnitStep_obuf (h : igeUnitStep cfg s = .next t) :
    t.obuf = s.obuf ∨
      (s.igeOp.isSome = true ∧ 16 * s.blk + 16 ≤ s.len.value ∧
        ∃ out, t.obuf = s.obuf.writeBlock (16 * s.blk) out) := by
  obtain ⟨-, rfl⟩ | ⟨c, hop, ⟨-, rfl⟩ | ⟨ha, hb, input, -, rfl⟩ | ⟨-, -, rfl⟩⟩ := igeUnitStep_cases h
  · exact Or.inl rfl
  · exact Or.inl rfl
  · obtain ⟨out, nc, np, he⟩ := blockStep_eq cfg c input s
    exact Or.inr ⟨Option.isSome_of_eq_some hop, block_end_le_len ha hb, out, by rw [he, emitBlock_obuf]⟩
  · exact Or.inl rfl

/-- All that a step can do to `OBUF`: leave it, store the block of a block step, or empty it at a reset. -/
theorem step_obuf (h : step s = .next t) :
    t.obuf = s.obuf ∨
      ((takeTurn s).1 = .igeUnit ∧ s.igeOp.isSome = true ∧ 16 * s.blk + 16 ≤ s.len.value ∧
        ∃ out, t.obuf = s.obuf.writeBlock (16 * s.blk) out) ∨
      ((takeTurn s).1 = .host ∧ (∃ rest, s.script = .reset :: rest) ∧ t.obuf = []) := by
  obtain ⟨ts, ⟨hhost, ⟨-, rfl⟩ | ⟨a, rest, hscript, hact⟩⟩ | ⟨hturn, hige⟩ | ⟨-, rfl⟩⟩ := step_cases_turns h
  · exact Or.inl rfl
  · exact (hostAction_obuf hact).imp_right fun ⟨ha, hempty⟩ => Or.inr ⟨hhost, ⟨rest, ha ▸ hscript⟩, hempty⟩
  · exact (igeUnitStep_obuf hige).imp_right fun hblock => Or.inl ⟨hturn, hblock⟩
  · rw [factUnitStep_frame]; exact Or.inl rfl

/-- All that a step can do to `IBUF`: leave it, write the bytes of a `WRBUF`, or empty it at a reset. -/
theorem step_ibuf (h : step s = .next t) :
    t.ibuf = s.ibuf ∨ (∃ x bs, t.ibuf = s.ibuf.writeBytes x bs) ∨ t.ibuf = [] := by
  obtain ⟨ts, ⟨-, ⟨-, rfl⟩ | ⟨a, rest, -, hact⟩⟩ | ⟨-, hige⟩ | ⟨-, rfl⟩⟩ := step_cases_turns h
  · exact Or.inl rfl
  · exact (hostAction_ibuf hact :)
  · rw [igeUnitStep_frame hige]; exact Or.inl rfl
  · rw [factUnitStep_frame]; exact Or.inl rfl

end

/-- Settles O43: what a step can do to a buffer (`step_ibuf`, `step_obuf`) keeps the canonical form. -/
theorem buffersStayCanonical : Obligations.BuffersStayCanonical := by
  intro s t hibuf hobuf h
  constructor
  · obtain he | ⟨x, bs, he⟩ | he := step_ibuf h <;> rw [he]
    · exact hibuf
    · exact Memory.wf_writeBytes _ _ _ hibuf
    · rfl
  · obtain he | ⟨-, -, -, out, he⟩ | ⟨-, -, he⟩ := step_obuf h <;> rw [he]
    · exact hobuf
    · exact Memory.wf_writeBlock _ _ _ hobuf
    · rfl

/-- Settles O49: of what a step can do to `OBUF` (`step_obuf`), the store of a block changes no byte outside it. -/
theorem obufIsWrittenByBlockStepsOnly : Obligations.ObufIsWrittenByBlockStepsOnly := by
  intro s t a h hne
  obtain he | ⟨hturn, hop, hend, out, he⟩ | ⟨hhost, hreset, -⟩ := step_obuf h
  · exact absurd (by rw [he]) hne
  · have hin : 16 * s.blk ≤ a ∧ a < 16 * s.blk + 16 := by
      by_contra hout
      exact hne (by rw [he, Memory.read_writeBlock, dif_neg hout])
    exact Or.inl ⟨hturn, hop, hin.1, hin.2, hin.2.trans_le hend⟩
  · exact Or.inr ⟨hhost, hreset⟩

end Sys2Proof.Machine
end

section
/-! The command words (spec/30_encoding.md R70 to R74) and the step in which the host writes one (R77), and when
`FACTORIZE_PQ_PAIR` is accepted (R204). -/

namespace Sys2Proof.Machine

/-! The decoder. -/

theorem decode_of_rsv_ne_zero {w : CommandWord} (h : w.rsv ≠ 0) : decode w = .error .reservedBits := if_pos h

theorem decode_encode (i : Instr) : decode (encode i) = .ok i := by cases i <;> decide

/-- A word is its two fields, `RSV` above `OP` (R70). -/
theorem commandWord_eq_append (w : CommandWord) : w = w.rsv ++ w.op := by
  unfold CommandWord.rsv CommandWord.op
  rw [BitVec.extractLsb'_append_extractLsb'_eq_extractLsb' (by rfl), BitVec.extractLsb'_eq_self]

/-- The fields of a word determine it (R71): one that decodes to a command has `RSV` 0 and that command's `OP`. -/
theorem eq_encode_of_decode {w : CommandWord} {i : Instr} (h : decode w = .ok i) : w = encode i := by
  unfold decode at h
  have hw := commandWord_eq_append w
  split_ifs at h with hrsv h1 h2 h3
  all_goals
    obtain rfl := Except.ok.inj h
    rw [hw, not_not.1 hrsv]
  · rw [h1]; rfl
  · rw [h2]; rfl
  · rw [h3]; rfl

/-- Settles O1: the four words by evaluation, the rest because the decoder tests `RSV` first. -/
theorem definedWordsAreExactlyThree : Obligations.DefinedWordsAreExactlyThree :=
  ⟨decode_encode .encryptIge, decode_encode .decryptIge, decode_encode .factorizePqPair, by decide,
    fun _ => decode_of_rsv_ne_zero⟩

/-- Settles O2, both directions. -/
theorem decodeAndEncodeAgree : Obligations.DecodeAndEncodeAgree :=
  ⟨decode_encode, fun _ _ => eq_encode_of_decode⟩

/-! The step in which the host writes a command word. -/

theorem writeCommand_of_ok {w : CommandWord} {i : Instr} (h : decode w = .ok i) (s : State) :
    writeCommand w s = exec i s := by
  simp [writeCommand, h]

theorem writeCommand_of_error {w : CommandWord} {e : Reject} (h : decode w = .error e) (s : State) :
    writeCommand w s = .refused (.reservedCommand w) := by
  simp [writeCommand, h]

/-- The host moves when it has the turn, by `turns` or by the default of log 8. -/
theorem step_of_host {s : State} {a : HostAction} {rest : List HostAction} (hturn : (takeTurn s).1 = .host)
    (hscript : s.script = a :: rest) :
    step s = hostAction Config.machine a { (takeTurn s).2 with script := rest } := by
  have hs : (takeTurn s).2.script = a :: rest := by rw [takeTurn_frame]; exact hscript
  simp [step, hturn, agentStep, hostStep, hs]

theorem fairAgent_of_idle {s : State} (hige : s.igeOp = none) (hfact : s.factOp = none) : fairAgent s = .host := by
  simp [fairAgent, hige, hfact]

/-- Settles O3: the host's action is the write, and the write runs what the word decodes to. -/
theorem stepRunsTheWrittenCommand : Obligations.StepRunsTheWrittenCommand := by
  refine ⟨fun s w i rest ts hturns hscript hdecode => ?_, fun s w i rest hturns hige hfact hscript hdecode => ?_,
    fun s i => ?_⟩
  · rw [step_of_host_turn hturns hscript]
    exact writeCommand_of_ok hdecode _
  · have hturn : takeTurn s = (.host, s) := by rw [takeTurn_nil s hturns, fairAgent_of_idle hige hfact]
    rw [step_of_host (by rw [hturn]) hscript, hturn]
    exact writeCommand_of_ok hdecode _
  · have hdecode : decode (BitVec.ofNat 8 (encode i).toNat) = .ok i := by
      rw [BitVec.ofNat_toNat, BitVec.setWidth_eq, decode_encode]
    rw [step_of_host_turn (withFetchWord_turns s _ _) (withFetchWord_script s _ _)]
    exact writeCommand_of_ok hdecode _

/-- A word other than the three is rejected, since the word of a command is its encoding (R73). -/
theorem decode_error_of_reserved {w : CommandWord} (h1 : w ≠ 0x01) (h2 : w ≠ 0x02) (h3 : w ≠ 0x03) :
    ∃ e, decode w = .error e := by
  cases hdecode : decode w with
  | error e => exact ⟨e, rfl⟩
  | ok i =>
    have hw := eq_encode_of_decode hdecode
    cases i with
    | encryptIge => exact absurd hw h1
    | decryptIge => exact absurd hw h2
    | factorizePqPair => exact absurd hw h3

/-- Settles O4: the decoder rejects the word, and the write of a rejected word is refused. -/
theorem reservedWordIsRefused : Obligations.ReservedWordIsRefused := by
  intro cfg s w h1 h2 h3
  obtain ⟨e, hdecode⟩ := decode_error_of_reserved h1 h2 h3
  refine ⟨writeCommand_of_error hdecode s, fun rest hturn hscript => ?_⟩
  rw [step_of_host hturn hscript]
  exact writeCommand_of_error hdecode _

/-- Settles O33: acceptance asks that the unit is idle and nothing else. -/
theorem idleFactUnitAcceptsEveryPq : Obligations.IdleFactUnitAcceptsEveryPq := by
  intro s
  rw [← factReady_iff]
  constructor
  · rintro ⟨t, h⟩
    exact (acceptFact_next (cfg := Config.machine) h).1
  · exact fun h => ⟨_, acceptFact_of_ready h⟩

end Sys2Proof.Machine
end

section
/-! `WAIT` ends (spec/30_encoding.md R79, spec/70_reset_and_hazards.md R213). A waiting machine has a measure: the
turns still given by `turns`, and a bound on the steps each busy unit has left. No step raises it, and every step but
the one that ends the wait lowers it. -/

namespace Sys2Proof.Machine

open Sys2Proof.Safety

/-! The steps the IGE unit has left: its blocks and the completion. -/

/-- A bound on the steps the IGE unit has left, 0 when it is idle. -/
def igeWork (s : State) : Nat :=
  match s.igeOp with
  | none => 0
  | some _ => blockCount s.len.value - s.blk + 1

theorem igeWork_idle {s : State} (h : s.igeOp = none) : igeWork s = 0 := by simp [igeWork, h]

theorem igeWork_busy {s : State} {c : IgeCommand} (h : s.igeOp = some c) :
    igeWork s = blockCount s.len.value - s.blk + 1 := by simp [igeWork, h]

/-- Under the invariant the unit does not stop, because the input bytes of a block hold values (R207). -/
theorem igeUnitStep_next_of_inv {cfg : Config} {s : State} (h : Inv cfg s) : ∃ t, igeUnitStep cfg s = .next t := by
  cases hop : s.igeOp with
  | none => exact ⟨_, igeUnitStep_idle hop⟩
  | some c =>
    cases ha : aligned s.len.value with
    | false => exact ⟨_, igeUnitStep_raise hop ha⟩
    | true =>
      by_cases hb : s.blk < blockCount s.len.value
      · have hbytes : s.ibuf.hasBytes (16 * s.blk) 16 = true :=
          Memory.hasBytes_sub ((h.ige_op c hop).input ha) (Nat.zero_le _) (by
            have := block_end_le_len ha hb
            omega)
        obtain ⟨input, hinput⟩ := Memory.readBlock_isSome hbytes
        exact ⟨_, igeUnitStep_block hop ha hb hinput⟩
      · exact ⟨_, igeUnitStep_complete hop ha (not_lt.1 hb)⟩

theorem igeWork_igeUnitStep {cfg : Config} {s t : State} (h : igeUnitStep cfg s = .next t)
    (hbusy : s.igeOp.isSome = true) : igeWork t < igeWork s := by
  obtain ⟨hop, -⟩ | ⟨c, hop, ⟨-, rfl⟩ | ⟨-, hb, input, -, rfl⟩ | ⟨-, -, rfl⟩⟩ := igeUnitStep_cases h
  · simp [hop] at hbusy
  · rw [igeWork_idle (raise_ige_igeOp _ s), igeWork_busy hop]; omega
  · obtain ⟨out, nc, np, he⟩ := blockStep_eq cfg c input s
    rw [he, igeWork_busy (s := emitBlock out nc np s) hop, igeWork_busy hop, emitBlock_len, emitBlock_blk]
    omega
  · rw [igeWork_idle (complete_ige_igeOp s), igeWork_busy hop]; omega

/-! The steps the FACT unit has left: the cycles still to come, and what the present one has done. -/

/-- The cycles of the search still to come (R127, R131), the present one among them. -/
def cyclesLeft (cfg : Config) (r : Search) : Nat :=
  (cfg.rhoCLast - r.c) * cfg.rhoMaxCycles + (cfg.rhoMaxCycles - r.k)

/-- A bound on the steps of one cycle: its batch, the gcd, its replay (R128, R129), and one for the end of the
command. -/
def cycleSteps (cfg : Config) : Nat := 2 * 2 ^ cfg.rhoMaxCycles + 2

/-- A bound on the steps a factorization has left, by its phase. -/
def searchWork (cfg : Config) (ph : FactPhase) (r : Search) : Nat :=
  match ph with
  | .direct => 1
  | .batch => cyclesLeft cfg r * cycleSteps cfg - r.j
  | .replay => cyclesLeft cfg r * cycleSteps cfg - (2 ^ r.k + 1 + r.j)
  | .found => 1
  | .exhausted => 1

/-- A bound on the steps the FACT unit has left, 0 when it is idle. -/
def factWork (cfg : Config) (s : State) : Nat :=
  match s.factOp with
  | none => 0
  | some ph => searchWork cfg ph s.search

theorem factWork_idle {cfg : Config} {s : State} (h : s.factOp = none) : factWork cfg s = 0 := by
  simp [factWork, h]

theorem factWork_busy {cfg : Config} {s : State} {ph : FactPhase} (h : s.factOp = some ph) :
    factWork cfg s = searchWork cfg ph s.search := by simp [factWork, h]

section
variable {cfg : Config} {pq : Nat} {r : Search}

/-- The batch and the replay of the present cycle have `2^K` steps each at most (R128, R129). -/
theorem two_pow_k_le_cycleSteps (h : SearchRanges cfg pq r) : 2 * 2 ^ r.k + 2 ≤ cycleSteps cfg := by
  have : 2 ^ r.k ≤ 2 ^ cfg.rhoMaxCycles := Nat.pow_le_pow_right (by decide) h.k_lt.le
  unfold cycleSteps
  omega

theorem cycleSteps_le_work (h : SearchRanges cfg pq r) :
    cycleSteps cfg ≤ cyclesLeft cfg r * cycleSteps cfg :=
  Nat.le_mul_of_pos_left _ (by have := h.k_lt; unfold cyclesLeft; omega)

theorem cyclesLeft_startCycle (hk : r.k + 1 < cfg.rhoMaxCycles) :
    cyclesLeft cfg (startCycle (r.k + 1) r) + 1 = cyclesLeft cfg r := by
  simp only [cyclesLeft, startCycle]; omega

theorem cyclesLeft_startConstant (h : SearchRanges cfg pq r) (hc : r.c < cfg.rhoCLast) :
    cyclesLeft cfg (startConstant cfg (r.c + 1) r) + 1 ≤ cyclesLeft cfg r := by
  have hk := h.k_lt
  have hsucc : cfg.rhoCLast - r.c = (cfg.rhoCLast - (r.c + 1)) + 1 := by omega
  simp only [cyclesLeft, startConstant, startCycle]
  rw [hsucc, Nat.succ_mul]
  omega

/-- A cycle begun later leaves at most the work of the cycles after this one. -/
theorem searchWork_batch_le {r' : Search} (h : cyclesLeft cfg r' + 1 ≤ cyclesLeft cfg r) :
    searchWork cfg .batch r' + cycleSteps cfg ≤ cyclesLeft cfg r * cycleSteps cfg :=
  calc searchWork cfg .batch r' + cycleSteps cfg
      ≤ cyclesLeft cfg r' * cycleSteps cfg + cycleSteps cfg := Nat.add_le_add_right (Nat.sub_le _ _) _
    _ = (cyclesLeft cfg r' + 1) * cycleSteps cfg := (Nat.succ_mul _ _).symm
    _ ≤ cyclesLeft cfg r * cycleSteps cfg := Nat.mul_le_mul_right _ h

/-- The end of a cycle lowers the work, whatever its outcome, if the cycle took fewer steps than it may. -/
theorem searchWork_endCycle {used : Nat} (h : SearchRanges cfg pq r) (hused : used + 1 < cycleSteps cfg) :
    searchWork cfg (endCycle cfg r).1 (endCycle cfg r).2 < cyclesLeft cfg r * cycleSteps cfg - used := by
  have hwork := cycleSteps_le_work h
  have hlast : 1 < cyclesLeft cfg r * cycleSteps cfg - used := by omega
  have hnext : ∀ {r'}, cyclesLeft cfg r' + 1 ≤ cyclesLeft cfg r →
      searchWork cfg .batch r' < cyclesLeft cfg r * cycleSteps cfg - used := fun hr' => by
    have := searchWork_batch_le hr'
    omega
  obtain ⟨-, -, he⟩ | ⟨-, -, hk, he⟩ | ⟨-, hc, he⟩ | ⟨-, -, he⟩ := endCycle_cases cfg r <;> rw [he]
  · exact hlast
  · exact hnext (cyclesLeft_startCycle hk).le
  · exact hnext (cyclesLeft_startConstant h hc)
  · exact hlast

theorem searchWork_batchStep (h : FactInv cfg pq .batch r) :
    searchWork cfg (batchStep cfg r).1 (batchStep cfg r).2 < searchWork cfg .batch r := by
  obtain ⟨hr, hj⟩ := h
  have hpow := two_pow_k_le_cycleSteps hr
  have hwork := cycleSteps_le_work hr
  by_cases hlt : r.j < 2 ^ r.k
  · rw [batchStep_iterate _ hlt]
    show cyclesLeft cfg r * cycleSteps cfg - (r.j + 1) < cyclesLeft cfg r * cycleSteps cfg - r.j
    omega
  · by_cases hg : Nat.gcd r.prod r.n = r.n
    · rw [batchStep_toReplay _ (not_lt.1 hlt) hg]
      show cyclesLeft cfg r * cycleSteps cfg - (2 ^ r.k + 1 + 0) < cyclesLeft cfg r * cycleSteps cfg - r.j
      omega
    · rw [batchStep_endCycle _ (not_lt.1 hlt) hg]
      exact searchWork_endCycle (r := { r with g := Nat.gcd r.prod r.n }) (pq := pq)
        { hr with g_dvd := Nat.gcd_dvd_right _ _ } (by omega)

theorem searchWork_replayStep (h : FactInv cfg pq .replay r) :
    searchWork cfg (replayStep cfg r).1 (replayStep cfg r).2 < searchWork cfg .replay r := by
  obtain ⟨hr, hj⟩ := h
  have hpow := two_pow_k_le_cycleSteps hr
  have hwork := cycleSteps_le_work hr
  by_cases hgo : (replayed r).g ≤ 1 ∧ r.j + 1 < 2 ^ r.k
  · rw [replayStep_continue _ hgo.1 hgo.2]
    show cyclesLeft cfg r * cycleSteps cfg - (2 ^ r.k + 1 + (r.j + 1)) <
      cyclesLeft cfg r * cycleSteps cfg - (2 ^ r.k + 1 + r.j)
    omega
  · rw [replayStep_endCycle _ hgo]
    exact searchWork_endCycle (searchRanges_replayed hr) (by omega)

end

theorem factWork_factUnitStep {cfg : Config} {s : State} {ph : FactPhase} (hop : s.factOp = some ph)
    (h : FactInv cfg s.pq.value.toNat ph s.search) : factWork cfg (factUnitStep cfg s) < factWork cfg s := by
  rw [factWork_busy hop]
  cases ph with
  | direct =>
    rw [factUnitStep_direct hop, factWork_idle (directStep_factOp s)]
    exact Nat.one_pos
  | batch =>
    rw [factUnitStep_batch hop]
    exact searchWork_batchStep h
  | replay =>
    rw [factUnitStep_replay hop]
    exact searchWork_replayStep h
  | found =>
    rw [factUnitStep_found hop, factWork_idle (s := foundStep s) rfl]
    exact Nat.one_pos
  | exhausted =>
    rw [factUnitStep_exhausted hop, factWork_idle (raise_fact_factOp _ s)]
    exact Nat.one_pos

/-! A waiting machine. -/

/-- The host's next action is a wait for a unit that is busy or has completed. -/
structure Waiting (u : UnitId) (rest : List HostAction) (s : State) : Prop where
  inv : Inv Config.machine s
  script : s.script = .wait u :: rest
  status_ne : statusOf u s ≠ 0

/-- A bound on the steps that both units have left. -/
def unitsWork (s : State) : Nat := igeWork s + factWork Config.machine s

section
variable {u : UnitId} {rest : List HostAction} {s t : State}

theorem statusBusy_of_igeLegal {w : BitVec 8} (h : igeStatusLegal w = true) (h0 : w ≠ 0)
    (hdone : statusDone w = false) : statusBusy w = true := by
  revert w; decide

theorem statusBusy_of_factLegal {w : BitVec 8} (h : factStatusLegal w = true) (h0 : w ≠ 0)
    (hdone : statusDone w = false) : statusBusy w = true := by
  revert w; decide

/-- While the awaited unit has not completed it is busy, and the default does not give the host the turn (log 8). -/
theorem fairAgent_ne_host (h : Waiting u rest s) (hdone : statusDone (statusOf u s) = false) :
    fairAgent s ≠ .host := by
  obtain ⟨hinv, -, h0⟩ := h
  cases u with
  | ige =>
    have hbusy : s.igeOp.isSome = true := hinv.ige_busy ▸ statusBusy_of_igeLegal hinv.ige_legal h0 hdone
    simp [fairAgent, hbusy]
  | fact =>
    have hbusy : s.factOp.isSome = true := hinv.fact_busy ▸ statusBusy_of_factLegal hinv.fact_legal h0 hdone
    rw [fairAgent, hbusy]
    split <;> simp

/-- The default passes over an idle unit. -/
theorem fairAgent_ne_igeUnit (hop : s.igeOp = none) : fairAgent s ≠ .igeUnit := by
  rw [fairAgent, if_neg (by simp [hop])]
  split <;> simp

theorem fairAgent_ne_factUnit (hop : s.factOp = none) : fairAgent s ≠ .factUnit := by
  simp only [fairAgent, hop]
  split <;> simp

theorem waitRead_of_done {again : List HostAction} (h : statusDone (statusOf u s) = true) :
    waitRead u again s = readStatus u s := if_pos h

theorem waitRead_of_not_done {again : List HostAction} (h : statusDone (statusOf u s) = false) :
    waitRead u again s = { readStatus u s with script := again } := if_neg (by simp [h])

theorem readStatus_script (u : UnitId) (s : State) : (readStatus u s).script = s.script := by cases u <;> rfl

theorem hostStep_of_cons {a : HostAction} (cfg : Config) (h : s.script = a :: rest) :
    hostStep cfg s = hostAction cfg a { s with script := rest } := by simp [hostStep, h]

/-- The read of a wait that goes on leaves the machine as it is but for what the host has read. -/
theorem hostStep_wait_again (cfg : Config) (h : s.script = .wait u :: rest)
    (hdone : statusDone (statusOf u s) = false) : hostStep cfg s = .next (readStatus u s) := by
  have hdone' : statusDone (statusOf u { s with script := rest }) = false := by cases u <;> exact hdone
  rw [hostStep_of_cons cfg h, hostAction, waitRead_of_not_done hdone']
  cases u <;> simp [readStatus, ← h]

/-- The read of a wait that finds `DONE` = 1 ends it. -/
theorem hostStep_wait_ends (cfg : Config) (h : s.script = .wait u :: rest)
    (hdone : statusDone (statusOf u s) = true) : ∃ t, hostStep cfg s = .next t ∧ t.script = rest := by
  have hdone' : statusDone (statusOf u { s with script := rest }) = true := by cases u <;> exact hdone
  refine ⟨readStatus u { s with script := rest }, ?_, readStatus_script u _⟩
  rw [hostStep_of_cons cfg h, hostAction, waitRead_of_done hdone']

/-- What a step of the agent `a` leaves of a wait that goes on: the wait, the turns, and less work of the units, unless
it is an agent that the default passes over. -/
structure GoesOn (u : UnitId) (rest : List HostAction) (a : Agent) (s t : State) : Prop where
  waiting : Waiting u rest t
  turns : t.turns = s.turns
  progress : unitsWork t < unitsWork s ∨ unitsWork t = unitsWork s ∧ a ≠ fairAgent s

theorem goesOn_readStatus (h : Waiting u rest s) (hdone : statusDone (statusOf u s) = false) :
    GoesOn u rest .host s (readStatus u s) where
  waiting :=
    { inv := inv_of_sameCore h.inv (sameCore_readStatus u s) (seenGrows_readStatus u s)
      script := (readStatus_script u s).trans h.script
      status_ne := by cases u <;> exact h.status_ne }
  turns := by cases u <;> rfl
  progress := Or.inr ⟨by cases u <;> rfl, (fairAgent_ne_host h hdone).symm⟩

/-- A status word that a unit's step leaves or sets to an outcome does not become 0. -/
theorem status_ne_zero {w w' : BitVec 8} {outcomes : List (BitVec 8)} (h : w' = w ∨ w' ∈ outcomes) (h0 : w ≠ 0)
    (hout : 0 ∉ outcomes) : w' ≠ 0 :=
  h.elim (fun he => he ▸ h0) fun hmem h0' => hout (h0' ▸ hmem)

theorem waiting_igeUnitStep (h : Waiting u rest s) (hstep : igeUnitStep Config.machine s = .next t) :
    Waiting u rest t where
  inv := inv_igeUnitStep h.inv hstep
  script := by rw [igeUnitStep_frame hstep]; exact h.script
  status_ne := by
    obtain ⟨hige, hfact⟩ := igeUnitStep_status hstep
    cases u with
    | ige => exact status_ne_zero hige h.status_ne (by decide)
    | fact => exact ne_of_eq_of_ne hfact h.status_ne

theorem waiting_factUnitStep (h : Waiting u rest s) : Waiting u rest (factUnitStep Config.machine s) where
  inv := inv_factUnitStep h.inv
  script := by rw [factUnitStep_frame]; exact h.script
  status_ne := by
    obtain ⟨hige, hfact⟩ := factUnitStep_status Config.machine s
    cases u with
    | ige => exact ne_of_eq_of_ne hige h.status_ne
    | fact => exact status_ne_zero hfact h.status_ne (by decide)

theorem goesOn_igeUnitStep (h : Waiting u rest s) (hstep : igeUnitStep Config.machine s = .next t) :
    GoesOn u rest .igeUnit s t where
  waiting := waiting_igeUnitStep h hstep
  turns := by rw [igeUnitStep_frame hstep]; rfl
  progress := by
    have hother : factWork Config.machine t = factWork Config.machine s := by rw [igeUnitStep_frame hstep]; rfl
    cases hop : s.igeOp with
    | none =>
      obtain rfl : s = t := Host.Outcome.next.inj ((igeUnitStep_idle hop).symm.trans hstep)
      exact Or.inr ⟨rfl, (fairAgent_ne_igeUnit hop).symm⟩
    | some c =>
      have hlt := igeWork_igeUnitStep hstep (Option.isSome_of_eq_some hop)
      exact Or.inl (add_lt_add_of_lt_of_le hlt hother.le)

theorem goesOn_factUnitStep (h : Waiting u rest s) : GoesOn u rest .factUnit s (factUnitStep Config.machine s) where
  waiting := waiting_factUnitStep h
  turns := by rw [factUnitStep_frame]; rfl
  progress := by
    have hother : igeWork (factUnitStep Config.machine s) = igeWork s := by rw [factUnitStep_frame]; rfl
    cases hop : s.factOp with
    | none =>
      rw [factUnitStep_idle hop]
      exact Or.inr ⟨rfl, (fairAgent_ne_factUnit hop).symm⟩
    | some ph =>
      have hlt := factWork_factUnitStep hop (h.inv.fact_op ph hop)
      exact Or.inl (add_lt_add_of_le_of_lt hother.le hlt)

/-- Whichever agent moves, the wait ends or goes on. -/
theorem agentStep_waiting (a : Agent) (h : Waiting u rest s) :
    ∃ t, agentStep Config.machine a s = .next t ∧ (t.script = rest ∨ GoesOn u rest a s t) := by
  cases a with
  | host =>
    cases hdone : statusDone (statusOf u s) with
    | true =>
      obtain ⟨t, hstep, hend⟩ := hostStep_wait_ends Config.machine h.script hdone
      exact ⟨t, hstep, Or.inl hend⟩
    | false => exact ⟨_, hostStep_wait_again Config.machine h.script hdone, Or.inr (goesOn_readStatus h hdone)⟩
  | igeUnit =>
    obtain ⟨t, hstep⟩ := igeUnitStep_next_of_inv h.inv
    exact ⟨t, hstep, Or.inr (goesOn_igeUnitStep h hstep)⟩
  | factUnit => exact ⟨_, rfl, Or.inr (goesOn_factUnitStep h)⟩

theorem waiting_withTurns (ts : List Agent) (h : Waiting u rest s) : Waiting u rest { s with turns := ts } where
  inv := inv_withSchedule s.script ts h.inv
  script := h.script
  status_ne := by cases u <;> exact h.status_ne

/-- The measure of a waiting machine: the turns given by `turns`, then the work of the units. -/
def waitWork (s : State) : Nat := s.turns.length + unitsWork s

/-- A step ends the wait or lowers the measure: it takes a turn from `turns`, or the default moves a busy unit. -/
theorem step_waiting (h : Waiting u rest s) :
    ∃ t, step s = .next t ∧ (t.script = rest ∨ Waiting u rest t ∧ waitWork t < waitWork s) := by
  unfold step waitWork
  cases hturns : s.turns with
  | nil =>
    rw [takeTurn_nil s hturns]
    obtain ⟨t, hstep, hend | hgo⟩ := agentStep_waiting (fairAgent s) h
    · exact ⟨t, hstep, Or.inl hend⟩
    · have hlt : unitsWork t < unitsWork s := hgo.progress.resolve_right fun hne => hne.2 rfl
      refine ⟨t, hstep, Or.inr ⟨hgo.waiting, ?_⟩⟩
      rw [hgo.turns, hturns]
      exact Nat.add_lt_add_left hlt _
  | cons a ts =>
    rw [takeTurn_cons s a ts hturns]
    obtain ⟨t, hstep, hend | hgo⟩ := agentStep_waiting a (waiting_withTurns ts h)
    · exact ⟨t, hstep, Or.inl hend⟩
    · have hle : unitsWork t ≤ unitsWork s := hgo.progress.elim (fun hlt => hlt.le) fun heq => heq.1.le
      refine ⟨t, hstep, Or.inr ⟨hgo.waiting, ?_⟩⟩
      rw [hgo.turns]
      exact add_lt_add_of_lt_of_le (Nat.lt_succ_self _) hle

end

theorem run_succ_of_step {s t : State} (n : Nat) (h : step s = .next t) :
    Host.Core.run core (n + 1) s = Host.Core.run core n t := by
  have h' : core.step s = .next t := h
  simp only [Host.Core.run, h']

/-- Settles O39, by induction on the measure that every step but the last lowers. -/
theorem waitEnds : Obligations.WaitEnds := by
  intro s u rest hinv hscript hstatus
  have h : Waiting u rest s := ⟨hinv, hscript, hstatus⟩
  clear hinv hscript hstatus
  induction hw : waitWork s using Nat.strong_induction_on generalizing s with
  | _ w ih =>
    obtain ⟨t, hstep, hend | ⟨hgo, hlt⟩⟩ := step_waiting h
    · exact ⟨1, t, run_succ_of_step 0 hstep, hend⟩
    · obtain ⟨n, t', hrun, hend⟩ := ih _ (hw ▸ hlt) t hgo rfl
      exact ⟨n + 1, t', (run_succ_of_step n hstep).trans hrun, hend⟩

end Sys2Proof.Machine
end

section
/-! The two recurrences over whole sequences of blocks (spec/40_ige.md sections 5 and 6). The recurrence of R93 is that
of R92 with the two chaining values exchanged (`decryptBlocks_eq_encryptBlocks`), so what holds of either for every
function of blocks is proved of R92's alone. The closed form (R101) is the one place where the recurrence is followed
block by block: how two outputs differ is then read off from how the terms of their closed forms differ. -/

namespace Sys2Proof.Machine

open Sys2Proof.Safety

/-- R92 and R93 are one recurrence: they exchange the roles of `PREV_CIPHER` and `PREV_PLAIN`. -/
theorem decryptBlocks_eq_encryptBlocks (f : Block → Block) (a b : Block) (l : List Block) :
    decryptBlocks f a b l = encryptBlocks f b a l := by
  induction l generalizing a b with
  | nil => rfl
  | cons x l ih => rw [decryptBlocks_cons, encryptBlocks_cons, ih]; rfl

/-! Round trip (R97). -/

theorem decryptBlocks_encryptBlocks (cfg : Config) (k : Key) (a b : Block) (m : List Block) :
    decryptBlocks (cfg.blockDecrypt k) a b (encryptBlocks (cfg.blockEncrypt k) a b m) = m := by
  induction m generalizing a b with
  | nil => rfl
  | cons x m ih => rw [encryptBlocks_cons, decryptBlocks_cons, decryptBlock_encryptBlock, ih]

theorem encryptBlocks_decryptBlocks (cfg : Config) (k : Key) (a b : Block) (z : List Block) :
    encryptBlocks (cfg.blockEncrypt k) a b (decryptBlocks (cfg.blockDecrypt k) a b z) = z := by
  induction z generalizing a b with
  | nil => rfl
  | cons x z ih => rw [decryptBlocks_cons, encryptBlocks_cons, encryptBlock_decryptBlock, ih]

/-- Settles O11: block by block, each direction undoes the other under the same chaining values. -/
theorem decryptionInvertsEncryption : Obligations.DecryptionInvertsEncryption :=
  fun cfg k _ m => ⟨decryptBlocks_encryptBlocks cfg k _ _ m, encryptBlocks_decryptBlocks cfg k _ _ m⟩

/-! Length and prefixes (R96, R103). -/

@[simp] theorem length_encryptBlocks (e : Block → Block) (a b : Block) (l : List Block) :
    (encryptBlocks e a b l).length = l.length := by
  induction l generalizing a b with
  | nil => rfl
  | cons x l ih => rw [encryptBlocks_cons, List.length_cons, ih, List.length_cons]

@[simp] theorem length_decryptBlocks (d : Block → Block) (a b : Block) (l : List Block) :
    (decryptBlocks d a b l).length = l.length := by
  rw [decryptBlocks_eq_encryptBlocks, length_encryptBlocks]

theorem encryptBlocks_take (e : Block → Block) (a b : Block) (l : List Block) (m : Nat) :
    encryptBlocks e a b (l.take m) = (encryptBlocks e a b l).take m := by
  induction l generalizing a b m with
  | nil => simp
  | cons x l ih =>
    cases m with
    | zero => simp
    | succ m => rw [List.take_succ_cons, encryptBlocks_cons, encryptBlocks_cons, List.take_succ_cons, ih]

/-- Settles O15: each output block is computed from the blocks before it and its own. -/
theorem outputPrefixDependsOnInputPrefix : Obligations.OutputPrefixDependsOnInputPrefix := by
  intro f iv1 iv2 l m _
  refine ⟨encryptBlocks_take f iv1 iv2 l m, ?_, length_encryptBlocks f iv1 iv2 l, length_decryptBlocks f iv1 iv2 l⟩
  rw [decryptBlocks_eq_encryptBlocks, decryptBlocks_eq_encryptBlocks, encryptBlocks_take]

/-! Sums of blocks. -/

theorem blockXor_blockXor_comm (a b c d : Block) :
    blockXor (blockXor a b) (blockXor c d) = blockXor (blockXor a c) (blockXor b d) := by
  rw [blockXor_assoc, blockXor_left_comm b, ← blockXor_assoc]

theorem xorUpTo_congr {t u : Nat → Block} (a : Block) {n : Nat} (h : ∀ j, j < n → t j = u j) :
    xorUpTo a t n = xorUpTo a u n := by
  induction n with
  | zero => rfl
  | succ n ih => rw [xorUpTo, xorUpTo, ih fun j hj => h j (by omega), h n (by omega)]

/-- The first term taken into the start. -/
theorem xorUpTo_succ_front (a : Block) (t : Nat → Block) (n : Nat) :
    xorUpTo a t (n + 1) = xorUpTo (blockXor a (t 0)) (fun j => t (j + 1)) n := by
  induction n with
  | zero => rfl
  | succ n ih => rw [xorUpTo, ih]; rfl

/-- Terms that are zero add nothing. -/
theorem xorUpTo_of_zero_from {t : Nat → Block} (a : Block) {m n : Nat} (hmn : m ≤ n)
    (h : ∀ j, m ≤ j → t j = zeroBlock) : xorUpTo a t n = xorUpTo a t m := by
  induction n, hmn using Nat.le_induction with
  | base => rfl
  | succ n hmn ih => rw [xorUpTo, ih, h n hmn, blockXor_zero]

theorem blockXor_xorUpTo (a' a : Block) (t' t : Nat → Block) (n : Nat) :
    blockXor (xorUpTo a' t' n) (xorUpTo a t n) = xorUpTo (blockXor a' a) (fun j => blockXor (t' j) (t j)) n := by
  induction n with
  | zero => rfl
  | succ n ih => rw [xorUpTo, xorUpTo, xorUpTo, blockXor_blockXor_comm, ih]

/-! The closed form (R101, R102). -/

/-- The term that block `j` adds to the closed form: `E(P_j xor P_(j-1))`, where block `-1` is `b`. -/
def igeTerm (e : Block → Block) (b : Block) (l : List Block) (j : Nat) : Block :=
  e (blockXor (nth l j) (prevOf b l j))

/-- Dropping the first block shifts the terms by one. -/
theorem igeTerm_cons_succ (e : Block → Block) (b x : Block) (l : List Block) (j : Nat) :
    igeTerm e b (x :: l) (j + 1) = igeTerm e x l j := by
  cases j <;> rfl

/-- A term depends on its own block and the one before it alone. -/
theorem igeTerm_congr {l l' : List Block} {j : Nat} (e : Block → Block) (b : Block) (hown : nth l' j = nth l j)
    (hprev : ∀ k, j = k + 1 → nth l' k = nth l k) : igeTerm e b l' j = igeTerm e b l j := by
  have hp : prevOf b l' j = prevOf b l j := by
    cases j with
    | zero => rfl
    | succ k => exact hprev k rfl
  rw [igeTerm, igeTerm, hown, hp]

theorem nth_encryptBlocks (e : Block → Block) (a b : Block) (l : List Block) {i : Nat} (hi : i < l.length) :
    nth (encryptBlocks e a b l) i = xorUpTo a (igeTerm e b l) (i + 1) := by
  induction l generalizing a b i with
  | nil => simp at hi
  | cons x l ih =>
    have hfirst : encryptBlock e a b x = blockXor a (igeTerm e b (x :: l) 0) := blockXor_comm _ _
    rw [encryptBlocks_cons, xorUpTo_succ_front, ← hfirst]
    cases i with
    | zero => rfl
    | succ i =>
      rw [xorUpTo_congr _ fun j _ => igeTerm_cons_succ e b x l j]
      exact ih _ _ (Nat.lt_of_succ_lt_succ hi)

/-- Output block `i` depends on input blocks `0 .. i` alone. -/
theorem nth_encryptBlocks_congr {l l' : List Block} {i : Nat} (e : Block → Block) (a b : Block)
    (hi : i < l.length) (hi' : i < l'.length) (h : ∀ j, j ≤ i → nth l' j = nth l j) :
    nth (encryptBlocks e a b l') i = nth (encryptBlocks e a b l) i := by
  rw [nth_encryptBlocks e a b l hi, nth_encryptBlocks e a b l' hi']
  exact xorUpTo_congr a fun j hj => igeTerm_congr e b (h j (by omega)) fun k hk => h k (by omega)

/-- Settles O13: the closed form, and that its terms up to `i` see blocks `0 .. i` alone. -/
theorem encryptionClosedForm : Obligations.EncryptionClosedForm :=
  fun e iv1 iv2 m _ hi =>
    ⟨nth_encryptBlocks e iv1 iv2 m hi, fun _ hi' h => nth_encryptBlocks_congr e iv1 iv2 hi hi' h⟩

/-- Settles O14: R102 is R101 with the two halves of `IV` exchanged. -/
theorem decryptionClosedForm : Obligations.DecryptionClosedForm := by
  intro d iv1 iv2 z i hi
  simp only [decryptBlocks_eq_encryptBlocks]
  exact encryptionClosedForm d iv2 iv1 z i hi

/-! How two outputs differ (R104 to R107). -/

/-- The difference of two outputs is the sum of the differences of the starts and of the terms. -/
theorem diff_encryptBlocks {l l' : List Block} {j : Nat} (e : Block → Block) (a' a b' b : Block)
    (hj : j < l.length) (hj' : j < l'.length) :
    diff (encryptBlocks e a' b' l') (encryptBlocks e a b l) j =
      xorUpTo (blockXor a' a) (fun k => blockXor (igeTerm e b' l' k) (igeTerm e b l k)) (j + 1) := by
  rw [diff, nth_encryptBlocks e a b l hj, nth_encryptBlocks e a' b' l' hj', blockXor_xorUpTo]

/-- A change of the start alone: no term differs. -/
theorem diff_encryptBlocks_start {l : List Block} {j : Nat} (e : Block → Block) (a' a b : Block)
    (hj : j < l.length) : diff (encryptBlocks e a' b l) (encryptBlocks e a b l) j = blockXor a' a := by
  rw [diff_encryptBlocks e a' a b b hj hj,
    xorUpTo_of_zero_from _ (Nat.zero_le _) fun k _ => blockXor_self (igeTerm e b l k), xorUpTo]

/-- A change of the block before the first alone: the term of the first block differs and no other. -/
theorem diff_encryptBlocks_prev {l : List Block} {j : Nat} (e : Block → Block) (a b' b : Block)
    (hj : j < l.length) :
    diff (encryptBlocks e a b' l) (encryptBlocks e a b l) j =
      blockXor (e (blockXor (nth l 0) b')) (e (blockXor (nth l 0) b)) := by
  have hlater : ∀ k, 1 ≤ k → blockXor (igeTerm e b' l k) (igeTerm e b l k) = zeroBlock := by
    rintro (_ | k) hk
    · omega
    · exact blockXor_self _
  rw [diff_encryptBlocks e a a b' b hj hj, xorUpTo_of_zero_from _ (by omega : 1 ≤ j + 1) hlater, xorUpTo, xorUpTo,
    blockXor_self, zero_blockXor]
  rfl

/-- The change of the term of the changed block `i`: `d_i` of R104, `e_i` of R107. -/
def ownDiff (f : Block → Block) (b : Block) (l l' : List Block) (i : Nat) : Block :=
  blockXor (f (blockXor (nth l' i) (prevOf b l i))) (f (blockXor (nth l i) (prevOf b l i)))

/-- The change of the term of the block after the changed block `i`: `d_(i+1)` of R104, `e_(i+1)` of R107. -/
def nextDiff (f : Block → Block) (l l' : List Block) (i : Nat) : Block :=
  blockXor (f (blockXor (nth l (i + 1)) (nth l' i))) (f (blockXor (nth l (i + 1)) (nth l i)))

section
variable {l l' : List Block} {i : Nat} (f : Block → Block) (a b : Block)
variable (hlen : l'.length = l.length) (hother : ∀ j, j ≠ i → nth l' j = nth l j)

include hother in
theorem blockXor_igeTerm_own : blockXor (igeTerm f b l' i) (igeTerm f b l i) = ownDiff f b l l' i := by
  have hp : prevOf b l' i = prevOf b l i := by
    cases i with
    | zero => rfl
    | succ k => exact hother k (by omega)
  rw [igeTerm, igeTerm, hp, ownDiff]

include hother in
theorem blockXor_igeTerm_next :
    blockXor (igeTerm f b l' (i + 1)) (igeTerm f b l (i + 1)) = nextDiff f l l' i := by
  rw [igeTerm, igeTerm, hother (i + 1) (by omega)]; rfl

include hother in
/-- Two terms alone see the changed block. -/
theorem blockXor_igeTerm_other {j : Nat} (hown : j ≠ i) (hnext : j ≠ i + 1) :
    blockXor (igeTerm f b l' j) (igeTerm f b l j) = zeroBlock := by
  rw [blockXor_eq_zero]
  exact igeTerm_congr f b (hother j hown) fun k hk => hother k (by omega)

include hlen hother

theorem nth_encryptBlocks_earlier {j : Nat} (hi : i < l.length) (hj : j < i) :
    nth (encryptBlocks f a b l') j = nth (encryptBlocks f a b l) j :=
  nth_encryptBlocks_congr f a b (by omega) (by omega) fun k hk => hother k (by omega)

theorem diff_encryptBlocks_own (hi : i < l.length) :
    diff (encryptBlocks f a b l') (encryptBlocks f a b l) i = ownDiff f b l l' i := by
  have hearlier : ∀ k, k < i → blockXor (igeTerm f b l' k) (igeTerm f b l k) = zeroBlock :=
    fun k hk => blockXor_igeTerm_other f b hother (by omega) (by omega)
  rw [diff_encryptBlocks f a a b b hi (by omega), xorUpTo, xorUpTo_congr _ hearlier,
    xorUpTo_of_zero_from _ (Nat.zero_le _) fun _ _ => rfl, xorUpTo, blockXor_self, zero_blockXor,
    blockXor_igeTerm_own f b hother]

/-- Every later block carries the differences of both terms. -/
theorem diff_encryptBlocks_later {j : Nat} (hij : i < j) (hj : j < l.length) :
    diff (encryptBlocks f a b l') (encryptBlocks f a b l) j = blockXor (ownDiff f b l l' i) (nextDiff f l l' i) := by
  have hi : i < l.length := hij.trans hj
  have hafter : ∀ k, i + 2 ≤ k → blockXor (igeTerm f b l' k) (igeTerm f b l k) = zeroBlock :=
    fun k hk => blockXor_igeTerm_other f b hother (by omega) (by omega)
  rw [diff_encryptBlocks f a a b b hj (by omega), xorUpTo_of_zero_from _ (by omega : i + 2 ≤ j + 1) hafter, xorUpTo,
    ← diff_encryptBlocks f a a b b hi (by omega), diff_encryptBlocks_own f a b hlen hother hi,
    blockXor_igeTerm_next f b hother]

end

/-- What a permutation makes of two different blocks differs. -/
theorem blockXor_ne_zero_of_injective {f : Block → Block} (hf : Function.Injective f) {x y : Block} (h : x ≠ y) :
    blockXor (f x) (f y) ≠ zeroBlock := fun h0 => h (hf ((blockXor_eq_zero _ _).1 h0))

theorem blockXor_left_ne {a b : Block} (c : Block) (h : a ≠ b) : blockXor c a ≠ blockXor c b := by
  rw [blockXor_comm c a, blockXor_comm c b]
  exact fun he => h ((blockXor_right_inj a b c).1 he)

section
variable {f : Block → Block} {l l' : List Block} {i : Nat} (hf : Function.Injective f) (hne : nth l' i ≠ nth l i)
include hf hne

theorem ownDiff_ne_zero (b : Block) : ownDiff f b l l' i ≠ zeroBlock :=
  blockXor_ne_zero_of_injective hf fun he => hne ((blockXor_right_inj _ _ _).1 he)

theorem nextDiff_ne_zero : nextDiff f l l' i ≠ zeroBlock :=
  blockXor_ne_zero_of_injective hf (blockXor_left_ne _ hne)

end

theorem blockDecrypt_injective (cfg : Config) (k : Key) : Function.Injective (cfg.blockDecrypt k) :=
  fun _ _ => (blockDecrypt_inj cfg k).1

theorem blockEncrypt_injective (cfg : Config) (k : Key) : Function.Injective (cfg.blockEncrypt k) :=
  fun _ _ => (blockEncrypt_inj cfg k).1

/-- Settles O16: the changed block enters two terms of the closed form, each through the injective `D`. -/
theorem ciphertextGarblePropagation : Obligations.CiphertextGarblePropagation := by
  intro cfg k iv1 iv2 z z' i hlen hi hne hother
  have hinj := blockDecrypt_injective cfg k
  simp only [decryptBlocks_eq_encryptBlocks]
  exact ⟨fun j => nth_encryptBlocks_earlier _ iv2 iv1 hlen hother hi,
    diff_encryptBlocks_own _ iv2 iv1 hlen hother hi, ownDiff_ne_zero hinj hne iv1,
    fun _ => nextDiff_ne_zero hinj hne, fun j => diff_encryptBlocks_later _ iv2 iv1 hlen hother⟩

/-- Settles O18: R106's two changes are R107's with the halves of `IV` exchanged. -/
theorem ivChangeOnDecryption : Obligations.IvChangeOnDecryption := by
  intro cfg k iv1 iv2 z
  simp only [decryptBlocks_eq_encryptBlocks]
  exact ⟨fun iv2' j => diff_encryptBlocks_start _ iv2' iv2 iv1, fun iv1' hne =>
    ⟨blockXor_ne_zero_of_injective (blockDecrypt_injective cfg k) (blockXor_left_ne _ hne),
      fun j => diff_encryptBlocks_prev _ iv2 iv1' iv1⟩⟩

/-- Settles O19: as O16 and O18, with `E` for `D`. -/
theorem plaintextGarblePropagation : Obligations.PlaintextGarblePropagation := by
  intro cfg k iv1 iv2 m
  have hinj := blockEncrypt_injective cfg k
  refine ⟨fun m' i hlen hi hne hother => ?_, fun iv1' j => diff_encryptBlocks_start _ iv1' iv1 iv2, fun iv2' hne =>
    ⟨blockXor_ne_zero_of_injective hinj (blockXor_left_ne _ hne),
      fun j => diff_encryptBlocks_prev _ iv1 iv2' iv2⟩⟩
  exact ⟨fun j => nth_encryptBlocks_earlier _ iv1 iv2 hlen hother hi,
    diff_encryptBlocks_own _ iv1 iv2 hlen hother hi, ownDiff_ne_zero hinj hne iv2,
    fun j => diff_encryptBlocks_later _ iv1 iv2 hlen hother⟩

/-! An affine cipher (R105). -/

/-- What an affine cipher makes of two blocks differs by what their difference alone determines. -/
theorem blockXor_of_affine {d : Block → Block} (hd : Affine d) (x y : Block) :
    blockXor (d x) (d y) = blockXor (d (blockXor x y)) (d zeroBlock) := by
  rw [hd x y, blockXor_cancel_right]

theorem blockXor_blockXor_right (a b c : Block) : blockXor (blockXor a c) (blockXor b c) = blockXor a b := by
  rw [blockXor_blockXor_comm, blockXor_self, blockXor_zero]

section
variable {d : Block → Block} (hd : Affine d) (b : Block) (l l' : List Block) (i : Nat)
include hd

theorem ownDiff_of_affine :
    ownDiff d b l l' i = blockXor (d (blockXor (nth l' i) (nth l i))) (d zeroBlock) := by
  rw [ownDiff, blockXor_of_affine hd, blockXor_blockXor_right]

/-- Both terms that see the changed block change alike, so that they cancel. -/
theorem nextDiff_of_affine : nextDiff d l l' i = ownDiff d b l l' i := by
  rw [ownDiff_of_affine hd, nextDiff, blockXor_comm _ (nth l' i), blockXor_comm _ (nth l i), blockXor_of_affine hd,
    blockXor_blockXor_right]

end

theorem nth_of_length_le {l : List Block} {j : Nat} (h : l.length ≤ j) : nth l j = zeroBlock :=
  List.getD_eq_default _ _ h

/-- Settles O17: the two differences that every later block carries are equal, and cancel. -/
theorem affineCipherConfinesGarble : Obligations.AffineCipherConfinesGarble := by
  intro cfg k iv1 iv2 z z' i hd hlen hi _ hother
  simp only [decryptBlocks_eq_encryptBlocks]
  refine ⟨?_, fun j hj => ?_⟩
  · rw [diff_encryptBlocks_own _ iv2 iv1 hlen hother hi, ownDiff_of_affine hd]
  · obtain hlt | hgt := Nat.lt_or_gt_of_ne hj
    · exact nth_encryptBlocks_earlier _ iv2 iv1 hlen hother hi hlt
    · by_cases hend : j < z.length
      · rw [← blockXor_eq_zero]
        exact (diff_encryptBlocks_later _ iv2 iv1 hlen hother hgt hend).trans (by
          rw [nextDiff_of_affine hd iv1, blockXor_self])
      · rw [nth_of_length_le (by rw [length_encryptBlocks]; omega),
          nth_of_length_le (by rw [length_encryptBlocks]; omega)]

end Sys2Proof.Machine
end

section
/-! The IGE commands on the machine (spec/40_ige.md R90 to R98): what one step of a busy unit does, and what the steps
from acceptance to completion leave in `OBUF`. A run is followed once for both
commands; `igeBlocks` names the recurrence of the command in progress. -/

namespace Sys2Proof.Machine

open Sys2Proof.Safety

/-! One step of a busy unit. -/

theorem emitBlock_obuf_own (out nc np : Block) (s : State) :
    (emitBlock out nc np s).obuf.readBlock (16 * s.blk) = some out := by
  rw [emitBlock_obuf, Memory.readBlock_writeBlock_same]

theorem emitBlock_obuf_other {a : Nat} (out nc np : Block) (s : State)
    (h : a < 16 * s.blk ∨ 16 * s.blk + 16 ≤ a) : (emitBlock out nc np s).obuf.read a = s.obuf.read a := by
  rw [emitBlock_obuf, Memory.read_writeBlock, dif_neg (by omega)]

/-- Settles O7: the step is `encryptStep` on the block read, or the completion. -/
theorem encryptBlockStep : Obligations.EncryptBlockStep := by
  intro cfg s hop hlen
  have ha := (aligned_iff _).2 hlen
  refine ⟨fun plain hblk hread => ⟨encryptStep cfg plain s, igeUnitStep_block hop ha hblk hread, ?_, ?_, ?_,
    blockStep_frame cfg .encrypt plain s⟩, fun hblk => igeUnitStep_complete hop ha hblk.ge⟩
  · rw [encryptStep, emitBlock_prevCipher, encryptBlock]
  · exact emitBlock_obuf_own _ _ plain s
  · exact fun a => emitBlock_obuf_other _ _ plain s

/-- Settles O8: the step is `decryptStep` on the block read, or the completion. -/
theorem decryptBlockStep : Obligations.DecryptBlockStep := by
  intro cfg s hop hlen
  have ha := (aligned_iff _).2 hlen
  refine ⟨fun cipher hblk hread => ⟨decryptStep cfg cipher s, igeUnitStep_block hop ha hblk hread, ?_, ?_, ?_,
    blockStep_frame cfg .decrypt cipher s⟩, fun hblk => igeUnitStep_complete hop ha hblk.ge⟩
  · rw [decryptStep, emitBlock_prevPlain, decryptBlock]
  · exact emitBlock_obuf_own _ cipher _ s
  · exact fun a => emitBlock_obuf_other _ cipher _ s

/-- The instruction of an IGE command. -/
def igeInstr (c : IgeCommand) : Instr :=
  match c with
  | .encrypt => .encryptIge
  | .decrypt => .decryptIge

theorem exec_igeInstr (c : IgeCommand) (s : State) : exec (igeInstr c) s = acceptIge Config.machine c s := by
  cases c <;> rfl

/-- Settles O9: a misaligned `LEN` makes an idle unit ready whatever else it holds, and its step raises. -/
theorem misalignedLengthEndsInMalformedInput : Obligations.MisalignedLengthEndsInMalformedInput := by
  intro s i c hic hidle hlen
  have hi : i = igeInstr c := by obtain ⟨rfl, rfl⟩ | ⟨rfl, rfl⟩ := hic <;> rfl
  have ha := (aligned_eq_false _).2 hlen
  have hready : igeReady Config.machine s = true := (igeReady_iff _ s).2 ⟨hidle, fun h => by simp [ha] at h⟩
  constructor
  · rw [hi, exec_igeInstr, acceptIge_of_ready c hready, startIge_misaligned ha, statusAccepted_eq]
  · exact igeUnitStep_raise rfl ha

/-! Blocks in a buffer. -/

/-- `MemWrite` of a sequence of blocks from address `a` upward. -/
def Memory.writeBlocks : Memory → Nat → List Block → Memory
  | m, _, [] => m
  | m, a, b :: bs => Memory.writeBlocks (m.writeBlock a b) (a + 16) bs

theorem Memory.read_writeBlocks_outside {bs : List Block} {a x : Nat} (m : Memory)
    (h : x < a ∨ a + 16 * bs.length ≤ x) : (m.writeBlocks a bs).read x = m.read x := by
  induction bs generalizing m a with
  | nil => rfl
  | cons b bs ih =>
    rw [List.length_cons] at h
    rw [Memory.writeBlocks, ih _ (by omega), Memory.read_writeBlock, dif_neg (by omega)]

theorem Memory.readBlock_writeBlocks {bs : List Block} {j : Nat} (m : Memory) (a : Nat) (h : j < bs.length) :
    (m.writeBlocks a bs).readBlock (a + 16 * j) = some (nth bs j) := by
  induction bs generalizing m a j with
  | nil => simp at h
  | cons b bs ih =>
    cases j with
    | zero =>
      calc ((m.writeBlock a b).writeBlocks (a + 16) bs).readBlock a
          = (m.writeBlock a b).readBlock a :=
            Memory.readBlock_congr fun k hk => Memory.read_writeBlocks_outside _ (Or.inl (by omega))
        _ = some b := Memory.readBlock_writeBlock_same m a b
    | succ j =>
      rw [Memory.writeBlocks, show a + 16 * (j + 1) = a + 16 + 16 * j by omega]
      exact ih _ _ (Nat.lt_of_succ_lt_succ h)

/-- What a run of blocks leaves in its own bytes does not depend on what the buffer held. -/
theorem Memory.read_writeBlocks_inside {bs : List Block} {x : Nat} (m m' : Memory) (h : x < 16 * bs.length) :
    (m.writeBlocks 0 bs).read x = (m'.writeBlocks 0 bs).read x := by
  have hread : ∀ m : Memory, (m.writeBlocks 0 bs).read x = some ((nth bs (x / 16))[x % 16]) := fun m => by
    have := (Memory.readBlock_eq_some _ _ _).1 (m.readBlock_writeBlocks 0 (show x / 16 < bs.length by omega))
      (x % 16) (Nat.mod_lt x (by decide))
    rwa [Nat.zero_add, Nat.div_add_mod] at this
  rw [hread m, hread m']

/-- A sequence is what is read at its own indices. -/
theorem filterMap_range_eq {f : Nat → Option Block} {l : List Block}
    (h : ∀ j, j < l.length → f j = some (nth l j)) : (List.range l.length).filterMap f = l := by
  calc (List.range l.length).filterMap f
      = (List.range l.length).map (nth l) :=
        List.filterMap_eq_map_iff_forall_eq_some.2 fun j hj => h j (List.mem_range.1 hj)
    _ = l := List.ext_getElem (by simp) fun j _ hj => by simp [nth, hj]

theorem outputBlocks_of_writeBlocks {s : State} {m : Memory} {bs : List Block} (h : s.obuf = m.writeBlocks 0 bs) :
    outputBlocks s bs.length = bs :=
  filterMap_range_eq fun j hj => by rw [h, ← m.readBlock_writeBlocks 0 hj, Nat.zero_add]

/-- Where the input bytes hold values no block is left out of the input blocks. -/
theorem inputBlocks_of_hasBytes {s : State} {n : Nat} (h : s.ibuf.hasBytes 0 (16 * n) = true) :
    (inputBlocks s n).length = n ∧ ∀ j, j < n → inputBlock s j = some (nth (inputBlocks s n) j) := by
  have hblock : ∀ j, j < n → inputBlock s j = some ((inputBlock s j).getD zeroBlock) := fun j hj => by
    have hbytes : s.ibuf.hasBytes (16 * j) 16 = true := Memory.hasBytes_sub h (by omega) (by omega)
    obtain ⟨b, hb⟩ := Memory.readBlock_isSome hbytes
    rw [inputBlock, hb, Option.getD_some]
  have hmap : inputBlocks s n = (List.range n).map fun j => (inputBlock s j).getD zeroBlock :=
    List.filterMap_eq_map_iff_forall_eq_some.2 fun j hj => hblock j (List.mem_range.1 hj)
  refine ⟨by simp [hmap], fun j hj => (hblock j hj).trans ?_⟩
  simp [hmap, nth, hj]

theorem inputBlocks_congr {s s' : State} {n : Nat} (h : ∀ a, a < 16 * n → s'.ibuf.read a = s.ibuf.read a) :
    inputBlocks s' n = inputBlocks s n :=
  List.filterMap_congr fun j hj => Memory.readBlock_congr fun k hk => h _ (by
    have := List.mem_range.1 hj
    omega)

/-! From acceptance to completion. -/

/-- The recurrence of the command (R92, R93), from `PREV_CIPHER` and `PREV_PLAIN`. -/
def igeBlocks (cfg : Config) (c : IgeCommand) (k : Key) : Block → Block → List Block → List Block :=
  match c with
  | .encrypt => encryptBlocks (cfg.blockEncrypt k)
  | .decrypt => decryptBlocks (cfg.blockDecrypt k)

theorem length_igeBlocks (cfg : Config) (c : IgeCommand) (k : Key) (a b : Block) (l : List Block) :
    (igeBlocks cfg c k a b l).length = l.length := by
  cases c with
  | encrypt => exact length_encryptBlocks _ a b l
  | decrypt => exact length_decryptBlocks _ a b l

theorem igeBlocks_nil (cfg : Config) (c : IgeCommand) (k : Key) (a b : Block) : igeBlocks cfg c k a b [] = [] := by
  cases c <;> rfl

/-- A block step stores the next block of the recurrence and leaves the chaining values from which the recurrence goes
on (R94, R95). -/
theorem blockStep_igeBlocks (cfg : Config) (c : IgeCommand) (input : Block) (s : State) :
    ∃ out nc np, blockStep cfg c input s = emitBlock out nc np s ∧
      ∀ l, igeBlocks cfg c s.key.value s.prevCipher s.prevPlain (input :: l) =
        out :: igeBlocks cfg c s.key.value nc np l := by
  cases c
  · exact ⟨_, _, _, rfl, fun _ => rfl⟩
  · exact ⟨_, _, _, rfl, fun _ => rfl⟩

theorem igeRun_succ {cfg : Config} {s t : State} (n : Nat) (h : igeUnitStep cfg s = .next t) :
    igeRun cfg (n + 1) s = igeRun cfg n t := by
  simp [igeRun, h]

/-- The state in which an IGE command has completed: success, the output stored, the chaining values left by the
last block. -/
def igeDone (obuf : Memory) (nc np : Block) (blk : Nat) (s : State) : State :=
  { s with
    igeStatus := statusSuccess, igeOp := none, obuf := obuf, prevCipher := nc, prevPlain := np, blk := blk }

/-- A busy unit with the blocks `l` to come stores the recurrence over them from `BLK` upward and completes. -/
theorem igeRun_of_busy {cfg : Config} {c : IgeCommand} {l : List Block} {s : State} (hop : s.igeOp = some c)
    (ha : aligned s.len.value = true) (hcount : s.blk + l.length = blockCount s.len.value)
    (hinput : ∀ j, j < l.length → inputBlock s (s.blk + j) = some (nth l j)) :
    ∃ nc np, igeRun cfg (l.length + 1) s = .next (igeDone
      (s.obuf.writeBlocks (16 * s.blk) (igeBlocks cfg c s.key.value s.prevCipher s.prevPlain l))
      nc np (s.blk + l.length) s) := by
  induction l generalizing s with
  | nil =>
    refine ⟨s.prevCipher, s.prevPlain, ?_⟩
    rw [igeRun_succ _ (igeUnitStep_complete hop ha hcount.ge), igeBlocks_nil]
    rfl
  | cons x l ih =>
    rw [List.length_cons] at hcount hinput
    have hx : inputBlock s s.blk = some x := hinput 0 (by omega)
    obtain ⟨out, nc, np, hstep, hblocks⟩ := blockStep_igeBlocks cfg c x s
    obtain ⟨nc', np', hrun⟩ := ih (s := emitBlock out nc np s) hop ha (by rw [emitBlock_blk, emitBlock_len]; omega)
      fun j hj => by
        have := hinput (j + 1) (by omega)
        rwa [show s.blk + (j + 1) = s.blk + 1 + j by omega] at this
    refine ⟨nc', np', ?_⟩
    rw [List.length_cons, igeRun_succ _ (igeUnitStep_block hop ha (by omega) hx), hstep, hrun, hblocks,
      show s.blk + (l.length + 1) = s.blk + 1 + l.length by omega]
    rfl

/-- The output of an IGE command: the recurrence over the input blocks with the two halves of `IV` (R90, R92, R93). -/
def igeOutput (cfg : Config) (c : IgeCommand) (s : State) : List Block :=
  igeBlocks cfg c s.key.value (ivFirst s.iv.value) (ivLast s.iv.value) (inputBlocks s (blockCount s.len.value))

section
variable {cfg : Config} {c : IgeCommand} {s : State} (hready : igeReady cfg s = true) (hlen : s.len.value % 16 = 0)
include hready hlen

theorem inputBlocks_of_ready :
    (inputBlocks s (blockCount s.len.value)).length = blockCount s.len.value ∧
      ∀ j, j < blockCount s.len.value → inputBlock s j = some (nth (inputBlocks s (blockCount s.len.value)) j) := by
  have ha := (aligned_iff _).2 hlen
  obtain ⟨-, hfits⟩ := (igeReady_iff cfg s).1 hready
  exact inputBlocks_of_hasBytes (by rw [blockCount_of_aligned ha]; exact (hfits ha).2)

theorem length_igeOutput : (igeOutput cfg c s).length = s.len.value / 16 := by
  rw [igeOutput, length_igeBlocks]
  exact (inputBlocks_of_ready hready hlen).1

/-- R96: an accepted command stores its output in `OBUF[0 .. LEN-1]` and completes. -/
theorem igeRun_startIge :
    ∃ nc np, igeRun cfg (s.len.value / 16 + 1) (startIge c s) = .next (igeDone
      (s.obuf.writeBlocks 0 (igeOutput cfg c s)) nc np (s.len.value / 16) { s with igeSeen := false }) := by
  have ha := (aligned_iff _).2 hlen
  obtain ⟨hcount, hinput⟩ := inputBlocks_of_ready hready hlen
  have hstart := startIge_aligned (c := c) ha
  obtain ⟨nc, np, hrun⟩ := igeRun_of_busy (cfg := cfg) (s := startIge c s)
    (l := inputBlocks s (blockCount s.len.value)) (by rw [hstart]) (by rw [hstart]; exact ha)
    (by rw [hstart, hcount, Nat.zero_add]) (by simp only [hstart, hcount, Nat.zero_add]; exact hinput)
  rw [hcount] at hrun
  refine ⟨nc, np, hrun.trans ?_⟩
  rw [hstart, Nat.zero_add]
  rfl

/-- The same, said of a run that is given. -/
theorem igeDone_of_run {t u : State} (ht : acceptIge cfg c s = .next t)
    (hu : igeRun cfg (s.len.value / 16 + 1) t = .next u) :
    u.igeStatus = statusSuccess ∧ u.obuf = s.obuf.writeBlocks 0 (igeOutput cfg c s) := by
  obtain ⟨-, rfl⟩ := acceptIge_next ht
  obtain ⟨nc, np, hrun⟩ := igeRun_startIge (c := c) hready hlen
  obtain rfl := Host.Outcome.next.inj (hu.symm.trans hrun)
  exact ⟨rfl, rfl⟩

end

/-- R92 to R96 for either command: what the host finds from acceptance to completion. -/
theorem igeCommand_writes_output {s : State} (c : IgeCommand) (hready : igeReady Config.machine s = true)
    (hlen : s.len.value % 16 = 0) :
    ∃ t u : State,
      exec (igeInstr c) s = .next t ∧
      t = { s with
            igeStatus := 0x01, igeSeen := false, igeOp := some c,
            prevCipher := ivFirst s.iv.value, prevPlain := ivLast s.iv.value, blk := 0 } ∧
      igeRun Config.machine (s.len.value / 16 + 1) t = .next u ∧
      u = { s with
            igeStatus := 0x02, igeSeen := false, igeOp := none, obuf := u.obuf,
            prevCipher := u.prevCipher, prevPlain := u.prevPlain, blk := s.len.value / 16 } ∧
      (inputBlocks s (s.len.value / 16)).length = s.len.value / 16 ∧
      outputBlocks u (s.len.value / 16) = igeOutput Config.machine c s ∧
      ∀ a, s.len.value ≤ a → u.obuf.read a = s.obuf.read a := by
  have hcount := length_igeOutput (c := c) hready hlen
  obtain ⟨nc, np, hrun⟩ := igeRun_startIge (c := c) hready hlen
  refine ⟨_, _, (exec_igeInstr c s).trans (acceptIge_of_ready c hready), ?_, hrun, ?_,
    (inputBlocks_of_ready hready hlen).1, ?_, fun a ha => ?_⟩
  · rw [startIge_aligned ((aligned_iff _).2 hlen), statusAccepted_eq]
  · rw [igeDone, statusSuccess_eq]
  · rw [← hcount]
    exact outputBlocks_of_writeBlocks rfl
  · exact Memory.read_writeBlocks_outside _ (Or.inr (by omega))

/-- Settles O5: for `ENCRYPT_IGE` the output is the recurrence of R92. -/
theorem encryptIgeWritesTheCiphertext : Obligations.EncryptIgeWritesTheCiphertext :=
  fun _ => igeCommand_writes_output .encrypt

/-- Settles O6: for `DECRYPT_IGE` the output is the recurrence of R93. -/
theorem decryptIgeWritesThePlaintext : Obligations.DecryptIgeWritesThePlaintext :=
  fun _ => igeCommand_writes_output .decrypt

theorem outputBlocks_of_run {cfg : Config} {c : IgeCommand} {s t u : State} (hready : igeReady cfg s = true)
    (hlen : s.len.value % 16 = 0) (ht : acceptIge cfg c s = .next t)
    (hu : igeRun cfg (s.len.value / 16 + 1) t = .next u) :
    outputBlocks u (s.len.value / 16) = igeOutput cfg c s := by
  rw [← length_igeOutput (c := c) hready hlen]
  exact outputBlocks_of_writeBlocks (igeDone_of_run hready hlen ht hu).2

/-- Settles O12: the two outputs are the recurrences, of which the second undoes the first. -/
theorem decryptCommandUndoesEncryptCommand : Obligations.DecryptCommandUndoesEncryptCommand := by
  rintro s t u v w x n rfl hs hlen ht hu hv hkey hiv hlen' hinput hw hx
  have hencrypted : outputBlocks u (s.len.value / 16) = igeOutput Config.machine .encrypt s :=
    outputBlocks_of_run hs hlen ht hu
  have hdecrypted : outputBlocks x (v.len.value / 16) = igeOutput Config.machine .decrypt v :=
    outputBlocks_of_run hv (hlen' ▸ hlen) hw (hlen' ▸ hx)
  rw [hlen'] at hdecrypted
  rw [hdecrypted, igeOutput, hkey, hiv, hlen', blockCount, hinput, hencrypted]
  exact decryptBlocks_encryptBlocks Config.machine s.key.value _ _ _

/-- The output is a function of the operands (R98). -/
theorem igeOutput_congr {s s' : State} (cfg : Config) (c : IgeCommand) (hkey : s'.key.value = s.key.value)
    (hiv : s'.iv.value = s.iv.value) (hlen : s'.len.value = s.len.value)
    (hinput : ∀ a, a < s.len.value → s'.ibuf.read a = s.ibuf.read a) : igeOutput cfg c s' = igeOutput cfg c s := by
  have hblocks : inputBlocks s' (blockCount s.len.value) = inputBlocks s (blockCount s.len.value) :=
    inputBlocks_congr fun a ha => hinput a (ha.trans_le (Nat.mul_div_le _ _))
  rw [igeOutput, igeOutput, hkey, hiv, hlen, hblocks]

/-- Settles O20: both runs store the same output, which covers `OBUF[0 .. LEN-1]`. -/
theorem igeOutcomeDependsOnOperandsOnly : Obligations.IgeOutcomeDependsOnOperandsOnly := by
  intro i s t u s' t' u' hi hs hs' haligned hkey hiv hlen hinput ht hu ht' hu'
  obtain ⟨c, rfl⟩ : ∃ c, i = igeInstr c := hi.elim (fun h => ⟨.encrypt, h⟩) fun h => ⟨.decrypt, h⟩
  rw [exec_igeInstr] at ht ht'
  obtain ⟨hstatus, hobuf⟩ := igeDone_of_run hs haligned ht hu
  obtain ⟨hstatus', hobuf'⟩ := igeDone_of_run hs' (hlen ▸ haligned) ht' (hlen ▸ hu')
  refine ⟨hstatus'.trans hstatus.symm, fun a ha => ?_⟩
  rw [hobuf, hobuf', igeOutput_congr _ c hkey hiv hlen hinput]
  exact Memory.read_writeBlocks_inside _ _ (by rw [length_igeOutput hs haligned]; omega)

end Sys2Proof.Machine
end

section
/-! The pseudocode of `FACTORIZE_PQ_PAIR` read as a whole (spec/41_factorization.md R121): a replay meets a divisor
(R129), every divisor that a search finds is a nontrivial one (R130), and what follows for the pair (R132, R134,
R135). -/

namespace Sys2Proof.Machine

open Sys2Proof.Safety

/-! The replay. -/

/-- A factor that is prime to `N` leaves `PROD` prime to `N` (R126). -/
theorem coprime_prodNext {n x y prod : Nat} (h : Nat.gcd prod n = 1) (hd : Nat.gcd (absdiff x y) n = 1) :
    Nat.gcd (prodNext n x y prod) n = 1 := by
  have hmul : Nat.Coprime (prod * absdiff x y) n := Nat.Coprime.mul_left h hd
  rwa [prodNext, ← Nat.gcd_rec, Nat.gcd_comm]

/-- R129: a batch that takes `PROD` from a value prime to `N` to a multiple of `N` has a difference not prime to `N`,
and the replay of its steps stops there at the latest. -/
theorem one_lt_wholeReplay {n : Nat} (hn : 1 < n) (c x r : Nat) {y prod : Nat} (g : Nat) (hprod : Nat.gcd prod n = 1)
    (hbatch : Nat.gcd (wholeBatch n c x r y prod).2 n = n) : 1 < wholeReplay n c x r y g := by
  induction r generalizing y prod g with
  | zero =>
    rw [wholeBatch_zero, hprod] at hbatch
    omega
  | succ r ih =>
    by_cases hstop : 1 < Nat.gcd (absdiff x (rhoNext n c y)) n
    · rwa [wholeReplay_stop r g hstop]
    · have hpos : 0 < Nat.gcd (absdiff x (rhoNext n c y)) n := Nat.gcd_pos_of_pos_right _ (by omega)
      rw [wholeReplay_go r g hstop]
      exact ih _ (coprime_prodNext hprod (by omega)) hbatch

/-- Settles O29: `PROD` starts at 1, which is prime to `N`, and 0 is a multiple of `N`. -/
theorem replayMeetsADivisor : Obligations.ReplayMeetsADivisor := fun n c x r g hn h0 =>
  one_lt_wholeReplay hn c x r g (Nat.gcd_one_left n) (by rw [h0, Nat.gcd_zero_left])

/-! The divisor that a search finds. -/

/-- A divisor of `n` other than 1 and `n` (R130). -/
def NontrivialDivisor (n d : Nat) : Prop := d ∣ n ∧ 1 < d ∧ d < n

theorem wholeReplay_dvd {n g : Nat} (c x r ys : Nat) (hg : g ∣ n) : wholeReplay n c x r ys g ∣ n := by
  induction r generalizing ys g with
  | zero => exact hg
  | succ r ih =>
    by_cases hstop : 1 < Nat.gcd (absdiff x (rhoNext n c ys)) n
    · rw [wholeReplay_stop r g hstop]
      exact Nat.gcd_dvd_right _ _
    · rw [wholeReplay_go r g hstop]
      exact ih _ (Nat.gcd_dvd_right _ _)

theorem wholeCycleG_dvd (n c k y : Nat) : wholeCycleG n c k y ∣ n := by
  unfold wholeCycleG
  split
  · exact wholeReplay_dvd _ _ _ _ (Nat.gcd_dvd_right _ _)
  · exact Nat.gcd_dvd_right _ _

theorem wholeConstant_nontrivialDivisor {n c fuel k y d : Nat} (h : wholeConstant n c fuel k y = some d) :
    NontrivialDivisor n d := by
  induction fuel generalizing k y with
  | zero => cases h
  | succ fuel ih =>
    rw [wholeConstant_succ] at h
    split at h
    next hg =>
      obtain rfl := Option.some.inj h
      exact ⟨wholeCycleG_dvd n c k y, hg⟩
    next =>
      split at h
      · cases h
      · exact ih h

theorem wholeSearch_nontrivialDivisor {n y0 maxCycles fuel c d : Nat}
    (h : wholeSearch n y0 maxCycles fuel c = some d) : NontrivialDivisor n d := by
  induction fuel generalizing c with
  | zero => cases h
  | succ fuel ih =>
    rw [wholeSearch_succ, Option.or_eq_some_iff] at h
    obtain h | ⟨-, h⟩ := h
    · exact wholeConstant_nontrivialDivisor h
    · exact ih h

/-- A prime has no nontrivial divisor. -/
theorem not_nontrivialDivisor_of_prime {p d : Nat} (hp : p.Prime) : ¬NontrivialDivisor p d := by
  rintro ⟨hd, h1, hlt⟩
  obtain rfl | rfl := (Nat.dvd_prime hp).1 hd <;> omega

/-- The nontrivial divisors of a product of two primes are the primes. -/
theorem nontrivialDivisor_mul_primes {p q d : Nat} (hp : p.Prime) (hq : q.Prime) (h : NontrivialDivisor (p * q) d) :
    d = p ∨ d = q := by
  obtain ⟨hd, h1, hlt⟩ := h
  obtain ⟨a, b, ha, hb, rfl⟩ := Nat.dvd_mul.1 hd
  obtain rfl | rfl := (Nat.dvd_prime hp).1 ha <;> obtain rfl | rfl := (Nat.dvd_prime hq).1 hb
  · omega
  · exact Or.inr (one_mul b)
  · exact Or.inl (mul_one a)
  · omega

/-- R132: the pair of a nontrivial divisor multiplies to `n`, in order and within bounds. -/
theorem NontrivialDivisor.pair {n d : Nat} (h : NontrivialDivisor n d) :
    min d (n / d) * max d (n / d) = n ∧ 1 < min d (n / d) ∧ min d (n / d) ≤ max d (n / d) ∧ max d (n / d) < n := by
  obtain ⟨hd, h1, hlt⟩ := h
  have hmul : d * (n / d) = n := Nat.mul_div_cancel' hd
  have hquot : 1 < n / d := (Nat.lt_div_iff_mul_lt' hd 1).2 (by omega)
  have hquot' : n / d < n := Nat.div_lt_self (by omega) h1
  exact ⟨(min_mul_max _ _).trans hmul, lt_min h1 hquot, min_le_max, max_lt hlt hquot'⟩

/-! The outcome of the pseudocode (R121). -/

section
variable {y0 cLast maxCycles pq : Nat}

theorem wholeFactorize_below (h : pq < 2) : wholeFactorize y0 cLast maxCycles pq = .error .invalidInput := if_pos h

theorem wholeFactorize_even (h : ¬pq < 2) (heven : pq % 2 = 0) :
    wholeFactorize y0 cLast maxCycles pq = .pair 2 (pq / 2) := (if_neg h).trans (if_pos heven)

theorem wholeFactorize_found {d : Nat} (h : ¬pq < 2) (hodd : ¬pq % 2 = 0)
    (hd : wholeSearch pq y0 maxCycles cLast 1 = some d) :
    wholeFactorize y0 cLast maxCycles pq = .pair (min d (pq / d)) (max d (pq / d)) := by
  rw [wholeFactorize, if_neg h, if_neg hodd, hd]

theorem wholeFactorize_exhausted (h : ¬pq < 2) (hodd : ¬pq % 2 = 0)
    (hd : wholeSearch pq y0 maxCycles cLast 1 = none) :
    wholeFactorize y0 cLast maxCycles pq = .error .factorizationFailed := by
  rw [wholeFactorize, if_neg h, if_neg hodd, hd]

end

/-- Settles O28: a search finds nothing, because a prime has no nontrivial divisor. -/
theorem oddPrimeFailsForEverySchedule : Obligations.OddPrimeFailsForEverySchedule := by
  intro y0 cLast maxCycles p hp hodd
  have hnone : wholeSearch p y0 maxCycles cLast 1 = none :=
    Option.eq_none_iff_forall_ne_some.2 fun d hd =>
      not_nontrivialDivisor_of_prime hp (wholeSearch_nontrivialDivisor hd)
  exact wholeFactorize_exhausted hp.two_le.not_gt (by omega) hnone

/-- R134 for an even product: its lesser prime is 2. -/
theorem eq_two_of_even_mul_primes {p q : Nat} (hp : p.Prime) (hq : q.Prime) (hpq : p ≤ q) (h : p * q % 2 = 0) :
    p = 2 := by
  obtain h2 | h2 := (Nat.Prime.dvd_mul Nat.prime_two).1 (Nat.dvd_of_mod_eq_zero h)
  · exact ((Nat.prime_dvd_prime_iff_eq Nat.prime_two hp).1 h2).symm
  · have hq2 : 2 = q := (Nat.prime_dvd_prime_iff_eq Nat.prime_two hq).1 h2
    exact le_antisymm (hq2 ▸ hpq) hp.two_le

/-- Settles O27: an even product has `p` = 2, and an odd one no nontrivial divisor but `p` and `q`. -/
theorem semiprimeSuccessGivesItsPrimes : Obligations.SemiprimeSuccessGivesItsPrimes := by
  intro y0 cLast maxCycles p q a b hp hq hpq h
  have hge : ¬p * q < 2 := not_lt.2 (hp.two_le.trans (Nat.le_mul_of_pos_right p hq.pos))
  by_cases heven : p * q % 2 = 0
  · obtain rfl := eq_two_of_even_mul_primes hp hq hpq heven
    rw [wholeFactorize_even hge heven, Nat.mul_div_cancel_left q Nat.two_pos] at h
    cases h
    exact ⟨rfl, rfl⟩
  · cases hsearch : wholeSearch (p * q) y0 maxCycles cLast 1 with
    | none =>
      rw [wholeFactorize_exhausted hge heven hsearch] at h
      cases h
    | some d =>
      rw [wholeFactorize_found hge heven hsearch] at h
      cases h
      obtain rfl | rfl := nontrivialDivisor_mul_primes hp hq (wholeSearch_nontrivialDivisor hsearch)
      · rw [Nat.mul_div_cancel_left q hp.pos]
        exact ⟨min_eq_left hpq, max_eq_right hpq⟩
      · rw [Nat.mul_div_cancel p hq.pos]
        exact ⟨min_eq_right hpq, max_eq_left hpq⟩

/-! The completion of a command on the machine (R122, R123, R132). -/

/-- `P` and `Q` hold the pair as it is when 64 bits hold it. -/
theorem completeWithPair_toNat {a b : Nat} (s : State) (ha : a < 2 ^ 64) (hb : b < 2 ^ 64) :
    (completeWithPair a b s).p.value.toNat = a ∧ (completeWithPair a b s).q.value.toNat = b :=
  ⟨(BitVec.toNat_ofNat _ _).trans (Nat.mod_eq_of_lt ha), (BitVec.toNat_ofNat _ _).trans (Nat.mod_eq_of_lt hb)⟩

/-- R122: one step after acceptance the command has failed. -/
theorem factUnitStep_startFact_below (cfg : Config) {s : State} (h : s.pq.value.toNat < 2) :
    factUnitStep cfg (startFact cfg s) = { raise .fact .invalidInput s with factSeen := false } := by
  rw [startFact_direct (Or.inl h), factUnitStep_direct rfl]
  exact directStep_below h

/-- R123: one step after acceptance the command has completed with the pair. -/
theorem factUnitStep_startFact_even (cfg : Config) {s : State} (h : ¬s.pq.value.toNat < 2)
    (heven : s.pq.value.toNat % 2 = 0) :
    factUnitStep cfg (startFact cfg s) = { completeWithPair 2 (s.pq.value.toNat / 2) s with factSeen := false } := by
  rw [startFact_direct (Or.inr heven), factUnitStep_direct rfl]
  exact directStep_even h

/-- Settles O24: the error writes nothing but the status. -/
theorem pqBelowTwoIsInvalidInput : Obligations.PqBelowTwoIsInvalidInput := by
  intro s hready hlt
  refine ⟨_, acceptFact_of_ready hready, ?_⟩
  rw [factUnitStep_startFact_below _ hlt, ← statusFailed_invalid]
  rfl

/-- Settles O25: the completion writes the pair and the status, and `2 <= PQ/2` but for `PQ` = 2. -/
theorem evenPqGivesTwoAndHalf : Obligations.EvenPqGivesTwoAndHalf := by
  intro s hready hge heven
  have hhalf : s.pq.value.toNat / 2 < 2 ^ 64 := (Nat.div_le_self _ _).trans_lt s.pq.value.isLt
  obtain ⟨hp, hq⟩ := completeWithPair_toNat s (show 2 < 2 ^ 64 by decide) hhalf
  refine ⟨_, _, acceptFact_of_ready hready, factUnitStep_startFact_even _ (not_lt.2 hge) heven, ?_, rfl, hq, ?_⟩
  · rw [← statusSuccess_eq]
    rfl
  · rw [hp, hq]
    omega

/-- The unit completes with success only by `directStep` on an even `PQ` or by `foundStep`: a search that goes on is
still busy, and the other steps raise an error. -/
theorem factUnitStep_success {s : State} (h : Inv Config.machine s) (hbusy : s.factOp.isSome = true)
    (hsuccess : (factUnitStep Config.machine s).factStatus = statusSuccess) :
    (s.factOp = some .direct ∧ ¬s.pq.value.toNat < 2 ∧ s.pq.value.toNat % 2 = 0 ∧
      factUnitStep Config.machine s = completeWithPair 2 (s.pq.value.toNat / 2) s) ∨
    (s.factOp = some .found ∧ s.search.n = s.pq.value.toNat ∧ NontrivialDivisor s.pq.value.toNat s.search.g ∧
      factUnitStep Config.machine s = foundStep s) := by
  have hne : s.factStatus ≠ statusSuccess := fun he => by
    have hidle := h.fact_busy
    rw [he, hbusy] at hidle
    simp at hidle
  obtain ⟨ph, hop⟩ := Option.isSome_iff_exists.1 hbusy
  have hinv := h.fact_op ph hop
  cases ph with
  | direct =>
    rw [factUnitStep_direct hop] at hsuccess ⊢
    by_cases hlt : s.pq.value.toNat < 2
    · rw [directStep_below hlt] at hsuccess
      exact absurd hsuccess (statusFailed_ne_success _)
    · exact Or.inl ⟨hop, hlt, hinv.resolve_left hlt, directStep_even hlt⟩
  | batch => rw [factUnitStep_batch hop] at hsuccess; exact absurd hsuccess hne
  | replay => rw [factUnitStep_replay hop] at hsuccess; exact absurd hsuccess hne
  | found =>
    obtain ⟨hr, h1, hlt⟩ := hinv
    exact Or.inr ⟨hop, hr.n_eq, hr.n_eq ▸ ⟨hr.g_dvd, h1, hlt⟩, factUnitStep_found hop⟩
  | exhausted => rw [factUnitStep_exhausted hop] at hsuccess; exact absurd hsuccess (statusFailed_ne_success _)

/-- Settles O26: `P * Q` is `2 * (PQ/2)` for an even `PQ`, and `G * (PQ/G)` after a search. -/
theorem successfulPairMultipliesToPq : Obligations.SuccessfulPairMultipliesToPq := by
  intro s hinv hbusy hsuccess
  have hpq : s.pq.value.toNat < 2 ^ 64 := s.pq.value.isLt
  obtain ⟨hop, hge, heven, hu⟩ | ⟨hop, hn, hd, hu⟩ :=
    factUnitStep_success hinv hbusy (hsuccess.trans statusSuccess_eq.symm)
  · obtain ⟨hp, hq⟩ := completeWithPair_toNat s (a := 2) (b := s.pq.value.toNat / 2) (by omega) (by omega)
    rw [hu]
    refine ⟨rfl, rfl, ?_, fun hodd => ?_, fun hfound => ?_⟩
    · rw [hp, hq]
      omega
    · omega
    · rw [hop] at hfound
      cases hfound
  · obtain ⟨hmul, h1, hle, hlt⟩ := hd.pair
    have hq64 := hlt.trans hpq
    obtain ⟨hp, hq⟩ := completeWithPair_toNat s (hle.trans_lt hq64) hq64
    rw [hu, foundStep, hn]
    refine ⟨rfl, rfl, ?_⟩
    rw [hp, hq]
    exact ⟨hmul, fun _ => ⟨h1, hle, hlt⟩, fun _ => ⟨rfl, rfl⟩⟩

end Sys2Proof.Machine
end

section
/-! The FACT unit carries out the pseudocode of `FACTORIZE_PQ_PAIR` (spec/41_factorization.md R121, R140) within the
counts of R137: batch by batch, replay by replay, cycle by cycle, constant by constant. A constant has at most one
replay, because a replay always ends with `G > 1` (R129) and so ends the constant. -/

namespace Sys2Proof.Machine

open Sys2Proof.Safety

/-! Counted runs of the unit. -/

theorem factRun_add (cfg : Config) (a b : Nat) (s : State) :
    factRun cfg (a + b) s = factRun cfg b (factRun cfg a s) := by
  induction a generalizing s with
  | zero => rw [Nat.zero_add]; rfl
  | succ a ih => rw [Nat.succ_add]; exact ih _

theorem countSteps_add (cfg : Config) (cond : State → Bool) (a b : Nat) (s : State) :
    countSteps cfg cond (a + b) s = countSteps cfg cond a s + countSteps cfg cond b (factRun cfg a s) := by
  induction a generalizing s with
  | zero => rw [Nat.zero_add]; exact (Nat.zero_add _).symm
  | succ a ih => rw [Nat.succ_add, countSteps, countSteps, ih, Nat.add_assoc]; rfl

/-- The unit goes from `s` to `t` by at most `a` applications of `f` and `g` batch gcds, in at most `a + g` steps. -/
def Takes (cfg : Config) (a g : Nat) (s t : State) : Prop :=
  ∃ k, k ≤ a + g ∧ factRun cfg k s = t ∧ countSteps cfg appliesF k s ≤ a ∧ countSteps cfg takesBatchGcd k s ≤ g

theorem Takes.refl (cfg : Config) (s : State) : Takes cfg 0 0 s s := ⟨0, le_refl _, rfl, le_refl _, le_refl _⟩

theorem not_takesBatchGcd_of_appliesF {s : State} (h : appliesF s = true) : takesBatchGcd s = false := by
  unfold appliesF at h
  split at h
  next hop => simpa [takesBatchGcd, hop] using h
  next hop => simp [takesBatchGcd, hop]
  all_goals cases h

section
variable {cfg : Config} {a a' g g' : Nat} {s t u : State}

theorem Takes.trans (h : Takes cfg a g s t) (h' : Takes cfg a' g' t u) : Takes cfg (a + a') (g + g') s u := by
  obtain ⟨k, hk, rfl, ha, hg⟩ := h
  obtain ⟨k', hk', rfl, ha', hg'⟩ := h'
  refine ⟨k + k', by omega, factRun_add _ _ _ _, ?_, ?_⟩ <;> rw [countSteps_add] <;> omega

theorem Takes.mono (h : Takes cfg a g s t) (ha : a ≤ a') (hg : g ≤ g') : Takes cfg a' g' s t := by
  obtain ⟨k, hk, hrun, hca, hcg⟩ := h
  exact ⟨k, by omega, hrun, hca.trans ha, hcg.trans hg⟩

theorem Takes.application (h : appliesF s = true) : Takes cfg 1 0 s (factUnitStep cfg s) :=
  ⟨1, le_refl _, rfl, by simp [countSteps, h], by simp [countSteps, not_takesBatchGcd_of_appliesF h]⟩

theorem Takes.batchGcd (h : takesBatchGcd s = true) : Takes cfg 0 1 s (factUnitStep cfg s) :=
  have hnot : appliesF s = false := by
    by_contra happ
    simp [not_takesBatchGcd_of_appliesF (by simpa using happ)] at h
  ⟨1, le_refl _, rfl, by simp [countSteps, hnot], by simp [countSteps, h]⟩

end

/-! What the search does, at the registers it has come to. -/

/-- The state `s` with the search of the FACT unit at a phase and registers. -/
def atSearch (s : State) (p : FactPhase × Search) : State := { s with factOp := some p.1, search := p.2 }

/-- The registers after `i` applications of `f` in a batch. -/
def batched (i : Nat) (r : Search) : Search :=
  { r with
    y := (wholeBatch r.n r.c r.x i r.y r.prod).1
    prod := (wholeBatch r.n r.c r.x i r.y r.prod).2
    j := r.j + i }

theorem batched_succ (i : Nat) (r : Search) : batched (i + 1) r = batched i (iterate r) := by
  have hj : r.j + (i + 1) = (iterate r).j + i := by rw [Nat.add_comm i 1, ← Nat.add_assoc]; rfl
  rw [batched, hj]
  rfl

/-- The registers of cycle `k`, begun at the registers `r`, when its batch is complete. -/
def cycleBatch (k : Nat) (r : Search) : Search := batched (2 ^ k) (startCycle k r)

theorem cycleBatch_complete (k : Nat) (r : Search) : 2 ^ (cycleBatch k r).k ≤ (cycleBatch k r).j :=
  (Nat.zero_add _).ge

/-- What a cycle of number `k` begun at the registers `r` leaves: `Y` after the batch, and the `G` of the cycle. -/
structure AfterCycle (k : Nat) (r r' : Search) : Prop where
  n_eq : r'.n = r.n
  c_eq : r'.c = r.c
  k_eq : r'.k = k
  y_eq : r'.y = (wholeBatch r.n r.c r.y (2 ^ k) r.y 1).1
  g_eq : r'.g = wholeCycleG r.n r.c k r.y

/-- How a constant ends, by what it has found (R130, R131). -/
def constantEnd (cfg : Config) (r : Search) (found : Option Nat) : FactPhase × Search :=
  match found with
  | some d => (.found, { r with g := d })
  | none => nextConstant cfg r

/-- How a search ends, by what it has found (R130, R131). -/
def searchEnd (r : Search) (found : Option Nat) : FactPhase × Search :=
  match found with
  | some d => (.found, { r with g := d })
  | none => (.exhausted, r)

/-- The most applications of `f` in the cycles `k`, ..., `k + fuel` of one constant: `2^i` in the batch of cycle `i`,
and `2^(k + fuel)` in a replay. -/
def constantApplications (k fuel : Nat) : Nat := 3 * 2 ^ (k + fuel) - 2 ^ k

theorem two_cycles_le_constantApplications (k fuel : Nat) : 2 * 2 ^ k ≤ constantApplications k fuel := by
  have : 2 ^ k ≤ 2 ^ (k + fuel) := Nat.pow_le_pow_right (by decide) (Nat.le_add_right k fuel)
  unfold constantApplications
  omega

theorem constantApplications_succ (k fuel : Nat) :
    2 ^ k + constantApplications (k + 1) fuel = constantApplications k (fuel + 1) := by
  have hle := two_cycles_le_constantApplications (k + 1) fuel
  have hpow : 2 ^ (k + 1) = 2 * 2 ^ k := Nat.pow_succ'
  unfold constantApplications at hle ⊢
  rw [show k + (fuel + 1) = k + 1 + fuel by omega]
  omega

section
variable (cfg : Config) (s : State)

theorem takes_iterate {r : Search} (hj : r.j < 2 ^ r.k) :
    Takes cfg 1 0 (atSearch s (.batch, r)) (atSearch s (.batch, iterate r)) := by
  have h : Takes cfg 1 0 (atSearch s (.batch, r)) _ := Takes.application (decide_eq_true hj)
  rw [factUnitStep_batch rfl] at h
  rwa [← batchStep_iterate cfg hj]

theorem takes_batchGcd {r : Search} (hj : 2 ^ r.k ≤ r.j) :
    Takes cfg 0 1 (atSearch s (.batch, r)) (atSearch s (batchStep cfg r)) := by
  have h : Takes cfg 0 1 (atSearch s (.batch, r)) _ := Takes.batchGcd (decide_eq_true hj)
  rwa [factUnitStep_batch rfl] at h

theorem takes_replayStep (r : Search) :
    Takes cfg 1 0 (atSearch s (.replay, r)) (atSearch s (replayStep cfg r)) := by
  have h : Takes cfg 1 0 (atSearch s (.replay, r)) _ := Takes.application rfl
  rwa [factUnitStep_replay rfl] at h

/-- The applications of a batch are the loop `for J` of R121. -/
theorem takes_batch (i : Nat) {r : Search} (hj : r.j + i ≤ 2 ^ r.k) :
    Takes cfg i 0 (atSearch s (.batch, r)) (atSearch s (.batch, batched i r)) := by
  induction i generalizing r with
  | zero => exact Takes.refl _ _
  | succ i ih =>
    have hrest : (iterate r).j + i ≤ 2 ^ (iterate r).k := by simp only [iterate]; omega
    rw [batched_succ]
    exact ((takes_iterate cfg s (by omega)).trans (ih hrest)).mono (by omega) (le_refl _)

/-- A replay with `m + 1` steps left ends the cycle with the `G` of the replay loop of R121. -/
theorem takes_replay (m : Nat) {r : Search} (hj : r.j + (m + 1) = 2 ^ r.k) :
    ∃ ys j, Takes cfg (m + 1) 0 (atSearch s (.replay, r))
      (atSearch s (endCycle cfg { r with g := wholeReplay r.n r.c r.x (m + 1) r.ys r.g, ys := ys, j := j })) := by
  have h := takes_replayStep cfg s r
  by_cases hstop : 1 < (replayed r).g
  · refine ⟨(replayed r).ys, (replayed r).j, ?_⟩
    rw [replayStep_endCycle cfg (by omega)] at h
    rw [wholeReplay_stop m r.g hstop]
    exact h.mono (by omega) (le_refl _)
  · rw [wholeReplay_go m r.g hstop]
    cases m with
    | zero =>
      rw [replayStep_endCycle cfg (by omega)] at h
      exact ⟨_, _, h⟩
    | succ m =>
      obtain ⟨ys, j, hrest⟩ := takes_replay m (r := replayed r) (by simp only [replayed]; omega)
      rw [replayStep_continue cfg (not_lt.1 hstop) (by omega)] at h
      exact ⟨ys, j, (h.trans hrest).mono (by omega) (le_refl _)⟩

theorem takes_cycleBatch (k : Nat) (r : Search) :
    Takes cfg (2 ^ k) 1 (atSearch s (.batch, startCycle k r)) (atSearch s (batchStep cfg (cycleBatch k r))) :=
  have hbatch : Takes cfg (2 ^ k) 0 (atSearch s (.batch, startCycle k r)) (atSearch s (.batch, cycleBatch k r)) :=
    takes_batch cfg s (2 ^ k) (Nat.zero_add _).le
  hbatch.trans (takes_batchGcd cfg s (cycleBatch_complete k r))

/-- A cycle whose batch gcd is not `N` has no replay (R128). -/
theorem takes_cycle_batch {k : Nat} {r : Search} (hg : Nat.gcd (cycleBatch k r).prod r.n ≠ r.n) :
    ∃ r', AfterCycle k r r' ∧
      Takes cfg (2 ^ k) 1 (atSearch s (.batch, startCycle k r)) (atSearch s (endCycle cfg r')) := by
  have hG : wholeCycleG r.n r.c k r.y = Nat.gcd (cycleBatch k r).prod r.n := if_neg hg
  have hbatch := takes_cycleBatch cfg s k r
  rw [batchStep_endCycle cfg (cycleBatch_complete k r) hg] at hbatch
  refine ⟨_, ?_, hbatch⟩
  exact ⟨rfl, rfl, rfl, rfl, hG.symm⟩

/-- A cycle whose batch gcd is `N` has a replay as long as its batch, which ends with `G > 1` (R129). -/
theorem takes_cycle_replay {k : Nat} {r : Search} (hn : 1 < r.n)
    (hg : Nat.gcd (cycleBatch k r).prod r.n = r.n) :
    ∃ r', AfterCycle k r r' ∧ 1 < r'.g ∧
      Takes cfg (2 * 2 ^ k) 1 (atSearch s (.batch, startCycle k r)) (atSearch s (endCycle cfg r')) := by
  have hG : wholeCycleG r.n r.c k r.y =
      wholeReplay r.n r.c r.y (2 ^ k) r.y (Nat.gcd (cycleBatch k r).prod r.n) := if_pos hg
  have h1 : 1 < wholeReplay r.n r.c r.y (2 ^ k) r.y (Nat.gcd (cycleBatch k r).prod r.n) :=
    one_lt_wholeReplay hn r.c r.y (2 ^ k) _ (Nat.gcd_one_left _) hg
  obtain ⟨m, hm⟩ : ∃ m, 2 ^ k = m + 1 := Nat.exists_eq_add_one.2 (Nat.two_pow_pos k)
  have hbatch := takes_cycleBatch cfg s k r
  rw [batchStep_toReplay cfg (cycleBatch_complete k r) hg] at hbatch
  obtain ⟨ys, j, hreplay⟩ := takes_replay cfg s m
    (r := { cycleBatch k r with g := Nat.gcd (cycleBatch k r).prod r.n, j := 0 }) ((Nat.zero_add _).trans hm.symm)
  rw [← hm] at hreplay
  refine ⟨_, ?_, ?_, (hbatch.trans hreplay).mono (by omega) (le_refl _)⟩
  · exact ⟨rfl, rfl, rfl, rfl, hG.symm⟩
  · exact h1

/-- A cycle runs its batch and, only when its `G` exceeds 1, a replay as long as the batch. -/
theorem takes_cycle (k : Nat) {r : Search} (hn : 1 < r.n) :
    ∃ r', AfterCycle k r r' ∧
      Takes cfg (if 1 < r'.g then 2 * 2 ^ k else 2 ^ k) 1 (atSearch s (.batch, startCycle k r))
        (atSearch s (endCycle cfg r')) := by
  by_cases hg : Nat.gcd (cycleBatch k r).prod r.n = r.n
  · obtain ⟨r', hr', h1, hcycle⟩ := takes_cycle_replay cfg s hn hg
    exact ⟨r', hr', hcycle.mono (if_pos h1).ge (le_refl _)⟩
  · obtain ⟨r', hr', hcycle⟩ := takes_cycle_batch cfg s hg
    exact ⟨r', hr', hcycle.mono (by split <;> omega) (le_refl _)⟩

/-- A cycle whose `G` exceeds 1 is the last of its constant (R130). -/
theorem endCycle_of_one_lt {k : Nat} {r r' : Search} (fuel : Nat) (hn : 1 < r.n) (h : AfterCycle k r r')
    (hg : 1 < r'.g) : endCycle cfg r' = constantEnd cfg r' (wholeConstant r.n r.c (fuel + 1) k r.y) := by
  have hle : r'.g ≤ r'.n := by
    rw [h.g_eq, h.n_eq]
    exact Nat.le_of_dvd (by omega) (wholeCycleG_dvd _ _ _ _)
  rw [wholeConstant_succ, ← h.g_eq, ← h.n_eq]
  by_cases hlt : r'.g < r'.n
  · rw [endCycle_found cfg ⟨hg, hlt⟩, if_pos ⟨hg, hlt⟩]
    rfl
  · have heq : r'.g = r'.n := le_antisymm hle (not_lt.1 hlt)
    rw [endCycle_collapse cfg heq, if_neg (fun hlt' => hlt hlt'.2), if_pos heq]
    rfl

/-- After a cycle whose `G` is at most 1 the next one comes. -/
theorem wholeConstant_of_le_one {k : Nat} {r r' : Search} (fuel : Nat) (hn : 1 < r.n) (h : AfterCycle k r r')
    (hg : ¬1 < r'.g) :
    wholeConstant r.n r.c (fuel + 1) k r.y = wholeConstant r'.n r'.c fuel (k + 1) r'.y := by
  have hne : r'.g ≠ r.n := by omega
  rw [h.g_eq] at hg hne
  rw [wholeConstant_succ, if_neg (fun hlt => hg hlt.1), if_neg hne, h.n_eq, h.c_eq, h.y_eq]

/-- The cycles from `k` on are the loop `for K` of R121. -/
theorem takes_constant (fuel : Nat) {k : Nat} {r : Search} (hn : 1 < r.n) (hk : k + fuel + 1 = cfg.rhoMaxCycles) :
    ∃ r', r'.n = r.n ∧ r'.c = r.c ∧
      Takes cfg (constantApplications k fuel) (fuel + 1) (atSearch s (.batch, startCycle k r))
        (atSearch s (constantEnd cfg r' (wholeConstant r.n r.c (fuel + 1) k r.y))) := by
  obtain ⟨r', hr', hcycle⟩ := takes_cycle cfg s k hn
  have hcost := two_cycles_le_constantApplications k fuel
  by_cases hg : 1 < r'.g
  · rw [if_pos hg, endCycle_of_one_lt cfg fuel hn hr' hg] at hcycle
    exact ⟨r', hr'.n_eq, hr'.c_eq, hcycle.mono hcost (by omega)⟩
  · have hne : r'.g ≠ r'.n := by have := hr'.n_eq; omega
    rw [if_neg hg] at hcycle
    rw [wholeConstant_of_le_one fuel hn hr' hg]
    cases fuel with
    | zero =>
      rw [endCycle_lastCycle cfg (fun hlt => hg hlt.1) hne (by have := hr'.k_eq; omega)] at hcycle
      exact ⟨r', hr'.n_eq, hr'.c_eq, hcycle.mono (by omega) (le_refl _)⟩
    | succ fuel =>
      rw [endCycle_nextCycle cfg (fun hlt => hg hlt.1) hne (by have := hr'.k_eq; omega), hr'.k_eq] at hcycle
      obtain ⟨r'', hn'', hc'', hrest⟩ := takes_constant fuel (r := r') (hr'.n_eq ▸ hn)
        (show k + 1 + fuel + 1 = cfg.rhoMaxCycles by omega)
      refine ⟨r'', hn''.trans hr'.n_eq, hc''.trans hr'.c_eq, (hcycle.trans hrest).mono ?_ (by omega)⟩
      exact (constantApplications_succ k fuel).le

/-- The constants from `c` on are the loop `for C` of R121. -/
theorem takes_search (fuel m : Nat) {c : Nat} {r : Search} (hn : 1 < r.n) (hm : m + 1 = cfg.rhoMaxCycles)
    (hc : c + fuel = cfg.rhoCLast) :
    ∃ r', r'.n = r.n ∧
      Takes cfg ((fuel + 1) * constantApplications 0 m) ((fuel + 1) * cfg.rhoMaxCycles)
        (atSearch s (.batch, startConstant cfg c r))
        (atSearch s (searchEnd r' (wholeSearch r.n cfg.rhoY0 cfg.rhoMaxCycles (fuel + 1) c))) := by
  obtain ⟨r', hn', hc', hconst⟩ := takes_constant cfg s m (k := 0)
    (r := { r with c := c, y := cfg.rhoY0 }) hn (by omega)
  rw [hm] at hconst
  rw [wholeSearch_succ]
  cases hfound : wholeConstant r.n c cfg.rhoMaxCycles 0 cfg.rhoY0 with
  | some d =>
    rw [hfound] at hconst
    exact ⟨r', hn', hconst.mono (Nat.le_mul_of_pos_left _ (Nat.succ_pos _))
      (Nat.le_mul_of_pos_left _ (Nat.succ_pos _))⟩
  | none =>
    rw [hfound, constantEnd] at hconst
    cases fuel with
    | zero =>
      rw [nextConstant_last cfg (by rw [hc']; dsimp only; omega)] at hconst
      exact ⟨r', hn', hconst.mono (by omega) (by omega)⟩
    | succ fuel =>
      rw [nextConstant_more cfg (by rw [hc']; dsimp only; omega), hc'] at hconst
      obtain ⟨r'', hn'', hrest⟩ := takes_search fuel m (c := c + 1) (r := r') (hn' ▸ hn) hm (by omega)
      rw [hn'] at hrest hn''
      refine ⟨r'', hn'', (hconst.trans hrest).mono ?_ ?_⟩
      · rw [Nat.succ_mul (fuel + 1)]; omega
      · rw [Nat.succ_mul (fuel + 1)]; omega

end

/-! The command as a whole (R121, R137). -/

/-- The unit is idle, or its next step ends the command. -/
def SearchOver (s : State) : Prop := s.factOp ≠ some .batch ∧ s.factOp ≠ some .replay

section
variable {cfg : Config} {s : State}

theorem factOp_of_searchOver (h : SearchOver s) : (factUnitStep cfg s).factOp = none := by
  obtain ⟨hbatch, hreplay⟩ := h
  cases hop : s.factOp with
  | none => rw [factUnitStep_idle hop, hop]
  | some ph =>
    cases ph with
    | direct => rw [factUnitStep_direct hop, directStep_factOp]
    | batch => exact absurd hop hbatch
    | replay => exact absurd hop hreplay
    | found => rw [factUnitStep_found hop]; rfl
    | exhausted => rw [factUnitStep_exhausted hop, raise_fact_factOp]

theorem searchOver_of_idle (h : s.factOp = none) : SearchOver s := by simp [SearchOver, h]

theorem appliesF_of_searchOver (h : SearchOver s) : appliesF s = false := by
  unfold appliesF
  split
  · exact absurd ‹_› h.1
  · exact absurd ‹_› h.2
  all_goals rfl

theorem takesBatchGcd_of_searchOver (h : SearchOver s) : takesBatchGcd s = false := by
  unfold takesBatchGcd
  split
  · exact absurd ‹_› h.1
  all_goals rfl

/-- Once the search is over the unit does nothing that `cond` counts. -/
theorem countSteps_of_searchOver {cond : State → Bool} (hcond : ∀ s, SearchOver s → cond s = false) (k : Nat)
    (h : SearchOver s) : countSteps cfg cond k s = 0 := by
  induction k generalizing s with
  | zero => rfl
  | succ k ih =>
    rw [countSteps, hcond s h, ih (searchOver_of_idle (factOp_of_searchOver h))]
    rfl

theorem countSteps_le_add (cfg : Config) (cond : State → Bool) (a b : Nat) (s : State) :
    countSteps cfg cond a s ≤ countSteps cfg cond (a + b) s := by
  rw [countSteps_add]
  exact Nat.le_add_right _ _

/-- The counts of a run that comes to the end of the search bound those of every run (R137). -/
theorem Takes.countSteps_le {a g : Nat} {t : State} (h : Takes cfg a g s t) (hover : SearchOver t) (k : Nat) :
    countSteps cfg appliesF k s ≤ a ∧ countSteps cfg takesBatchGcd k s ≤ g := by
  obtain ⟨m, -, rfl, ha, hg⟩ := h
  have hbound : ∀ cond, (∀ s, SearchOver s → cond s = false) →
      countSteps cfg cond k s ≤ countSteps cfg cond m s := fun cond hcond =>
    calc countSteps cfg cond k s
        ≤ countSteps cfg cond (k + m) s := countSteps_le_add cfg cond k m s
      _ = countSteps cfg cond m s + countSteps cfg cond k (factRun cfg m s) := by
          rw [Nat.add_comm, countSteps_add]
      _ = countSteps cfg cond m s := by rw [countSteps_of_searchOver hcond k hover, Nat.add_zero]
  exact ⟨(hbound _ fun _ => appliesF_of_searchOver).trans ha, (hbound _ fun _ => takesBatchGcd_of_searchOver).trans hg⟩

theorem searchOver_searchEnd (s : State) (r : Search) (found : Option Nat) :
    SearchOver (atSearch s (searchEnd r found)) := by
  cases found <;> simp [SearchOver, atSearch, searchEnd]

end

/-- The state that an accepted factorization of `s` leaves: the outcome of the pseudocode, and the working registers
of `t`. -/
def factDone (cfg : Config) (s t : State) : State :=
  { applyOutcome (wholeFactorize cfg.rhoY0 cfg.rhoCLast cfg.rhoMaxCycles s.pq.value.toNat) s with
    factSeen := false, search := t.search }

/-- The step that ends a search completes the command as the pseudocode does. -/
theorem factUnitStep_searchEnd {cfg : Config} {s : State} {r : Search} (hge : ¬s.pq.value.toNat < 2)
    (hodd : ¬s.pq.value.toNat % 2 = 0) (hn : r.n = s.pq.value.toNat) {found : Option Nat}
    (hfound : wholeSearch s.pq.value.toNat cfg.rhoY0 cfg.rhoMaxCycles cfg.rhoCLast 1 = found) :
    factUnitStep cfg (atSearch { s with factStatus := statusAccepted, factSeen := false } (searchEnd r found)) =
      factDone cfg s (atSearch s (searchEnd r found)) := by
  cases found with
  | some d =>
    rw [factUnitStep_found rfl, factDone, wholeFactorize_found hge hodd hfound, ← hn]
    rfl
  | none =>
    rw [factUnitStep_exhausted rfl, factDone, wholeFactorize_exhausted hge hodd hfound]
    rfl

/-- Without a search the step after acceptance completes the command as the pseudocode does (R122, R123). -/
theorem factUnitStep_startFact_direct (cfg : Config) {s : State}
    (h : s.pq.value.toNat < 2 ∨ s.pq.value.toNat % 2 = 0) :
    factUnitStep cfg (startFact cfg s) = factDone cfg s s := by
  by_cases hlt : s.pq.value.toNat < 2
  · rw [factUnitStep_startFact_below cfg hlt, factDone, wholeFactorize_below hlt]
    rfl
  · have heven := h.resolve_left hlt
    rw [factUnitStep_startFact_even cfg hlt heven, factDone, wholeFactorize_even hlt heven]
    rfl

/-- An accepted factorization comes within the counts of R137 to the state before its end, and ends as the pseudocode
says. -/
theorem takes_startFact (s : State) :
    ∃ t u, Takes Config.machine 12582904 160 (startFact Config.machine s) t ∧ SearchOver t ∧
      factUnitStep Config.machine t = factDone Config.machine s u := by
  by_cases hdirect : s.pq.value.toNat < 2 ∨ s.pq.value.toNat % 2 = 0
  · refine ⟨_, s, (Takes.refl _ _).mono (Nat.zero_le _) (Nat.zero_le _), ?_,
      factUnitStep_startFact_direct _ hdirect⟩
    simp [SearchOver, startFact_direct hdirect]
  · obtain ⟨hge, hodd⟩ := not_or.1 hdirect
    obtain ⟨r, hn, hsearch⟩ := takes_search Config.machine
      { s with factStatus := statusAccepted, factSeen := false } 7 19 (c := 1)
      (r := { s.search with n := s.pq.value.toNat, g := 1 }) (show 1 < s.pq.value.toNat by omega) rfl rfl
    rw [startFact_search hdirect]
    refine ⟨_, _, hsearch.mono ?_ ?_, searchOver_searchEnd _ _ _, factUnitStep_searchEnd hge hodd hn rfl⟩
    · decide
    · decide

theorem applyOutcome_factOp (o : FactOutcome) (s : State) : (applyOutcome o s).factOp = none := by cases o <;> rfl

/-- Settles O21: the steps of the search, and the one that ends the command. -/
theorem factorizationEndsAsThePseudocodeSays : Obligations.FactorizationEndsAsThePseudocodeSays := by
  intro s hready
  obtain ⟨t, u, ⟨k, hk, hrun, -, -⟩, -, hdone⟩ := takes_startFact s
  refine ⟨_, acceptFact_of_ready hready, statusAccepted_eq ▸ startFact_frame _ s, k + 1, _, by omega, rfl, ?_⟩
  have hend : factRun Config.machine (k + 1) (startFact Config.machine s) = factDone Config.machine s u := by
    rw [factRun_add, hrun]
    exact hdone
  rw [hend]
  exact ⟨applyOutcome_factOp _ s, rfl⟩

/-- Settles O22: no step after the end of the search counts. -/
theorem factorizationWorkIsBounded : Obligations.FactorizationWorkIsBounded := by
  intro s t k _ hexec
  obtain ⟨-, rfl⟩ := acceptFact_next (cfg := Config.machine) hexec
  obtain ⟨u, -, htakes, hover, -⟩ := takes_startFact s
  exact htakes.countSteps_le hover k

end Sys2Proof.Machine
end

section
/-! The outcome of a command (spec/60_exceptions.md): which error a unit step ends its command with, when (R172, R173),
what that step writes (R174, R177), and how long the outcome stays (R180). -/

namespace Sys2Proof.Machine

open Sys2Proof.Safety

/-! The status word of a busy unit, and of one whose command has ended. -/

section
variable {cfg : Config} {s t : State}

theorem igeStatus_of_busy (h : Inv cfg s) (hop : s.igeOp.isSome = true) : s.igeStatus = statusAccepted := by
  have word : ∀ w, igeStatusLegal w = true → statusBusy w = true → w = statusAccepted := by decide
  exact word _ h.ige_legal (h.ige_busy.trans hop)

theorem factStatus_of_busy (h : Inv cfg s) (hop : s.factOp.isSome = true) : s.factStatus = statusAccepted := by
  have word : ∀ w, factStatusLegal w = true → statusBusy w = true → w = statusAccepted := by decide
  exact word _ h.fact_legal (h.fact_busy.trans hop)

theorem igeOp_of_done (h : Inv cfg s) (hdone : statusDone s.igeStatus = true) : s.igeOp = none := by
  by_contra hop
  rw [igeStatus_of_busy h (Option.isSome_iff_ne_none.2 hop), statusDone_accepted] at hdone
  cases hdone

theorem factOp_of_done (h : Inv cfg s) (hdone : statusDone s.factStatus = true) : s.factOp = none := by
  by_contra hop
  rw [factStatus_of_busy h (Option.isSome_iff_ne_none.2 hop), statusDone_accepted] at hdone
  cases hdone

/-! The errors of the IGE unit. -/

/-- Everything a step of the busy IGE unit can do, by what it leaves in the status register. -/
theorem igeUnitStep_outcome (h : Inv cfg s) (hop : s.igeOp.isSome = true) (hstep : igeUnitStep cfg s = .next t) :
    (s.len.value % 16 ≠ 0 ∧ t = raise .ige .malformedInput s) ∨
    (s.len.value % 16 = 0 ∧ (t.igeStatus = statusAccepted ∧ t.igeOp = s.igeOp ∨ t = complete .ige s)) := by
  obtain ⟨hidle, -⟩ | ⟨c, -, ⟨ha, ht⟩ | ⟨ha, -, input, -, rfl⟩ | ⟨ha, -, ht⟩⟩ := igeUnitStep_cases hstep
  · simp [hidle] at hop
  · exact Or.inl ⟨(aligned_eq_false _).1 ha, ht⟩
  · have hbusy : s.igeStatus = statusAccepted := igeStatus_of_busy h hop
    rw [blockStep_frame]
    exact Or.inr ⟨(aligned_iff _).1 ha, Or.inl ⟨hbusy, rfl⟩⟩
  · exact Or.inr ⟨(aligned_iff _).1 ha, Or.inr ht⟩

/-! The errors of the FACT unit. -/

/-- There is a search only for a `PQ` of at least 3 (R122, R123). -/
theorem not_below_two_of_search {ph : FactPhase} {pq : Nat} {r : Search} (h : FactInv cfg pq ph r)
    (hph : ph ≠ .direct) : ¬pq < 2 := by
  have hr : SearchRanges cfg pq r := by
    cases ph with
    | direct => exact absurd rfl hph
    | batch => exact h.1
    | replay => exact h.1
    | found => exact h.1
    | exhausted => exact h.1
  have hn := hr.n_eq
  have hge := hr.n_ge
  omega

end

/-- Settles O10: only the raising step of a misaligned `LEN` leaves the error word. -/
theorem malformedInputExactlyOnMisalignedLength : Obligations.MalformedInputExactlyOnMisalignedLength := by
  intro s u hinv hop hstep
  obtain ⟨hlen, rfl⟩ | ⟨hlen, ⟨hstatus, -⟩ | rfl⟩ := igeUnitStep_outcome hinv hop hstep
  · exact iff_of_true statusFailed_malformed hlen
  · exact iff_of_false (hstatus ▸ by decide) (not_not.2 hlen)
  · exact iff_of_false (by decide : statusSuccess ≠ 0x06) (not_not.2 hlen)

/-- Settles O23: `directStep` raises the error below 2, no other step raises it, and the other phases belong to a
search, which there is only from 3. -/
theorem invalidInputExactlyBelowTwo : Obligations.InvalidInputExactlyBelowTwo := by
  intro s hinv hbusy
  obtain ⟨ph, hop⟩ := Option.isSome_iff_exists.1 hbusy
  have hgoes : s.factStatus ≠ 0x0A := factStatus_of_busy hinv hbusy ▸ by decide
  have hge := not_below_two_of_search (hinv.fact_op ph hop)
  cases ph with
  | direct =>
    rw [factUnitStep_direct hop]
    by_cases hlt : s.pq.value.toNat < 2
    · rw [directStep_below hlt]
      exact iff_of_true statusFailed_invalid hlt
    · rw [directStep_even hlt]
      exact iff_of_false (by decide : statusSuccess ≠ 0x0A) hlt
  | batch => rw [factUnitStep_batch hop]; exact iff_of_false hgoes (hge nofun)
  | replay => rw [factUnitStep_replay hop]; exact iff_of_false hgoes (hge nofun)
  | found =>
    rw [factUnitStep_found hop]
    exact iff_of_false (by decide : statusSuccess ≠ 0x0A) (hge nofun)
  | exhausted =>
    rw [factUnitStep_exhausted hop]
    exact iff_of_false (by decide : statusFailed .factorizationFailed ≠ 0x0A) (hge nofun)

/-- Settles O51: a step that ends the command is `raise` or a completion, and a completion is a success. -/
theorem errorsWriteNothingButTheStatus : Obligations.ErrorsWriteNothingButTheStatus := by
  constructor
  · intro s t hinv hop hstep hend hfail
    obtain ⟨-, rfl⟩ | ⟨-, ⟨-, hgoes⟩ | rfl⟩ := igeUnitStep_outcome hinv hop hstep
    · rw [← statusFailed_malformed]; rfl
    · simp [← hgoes, hend] at hop
    · exact absurd statusSuccess_eq hfail
  · rintro s t - hop rfl hend hfail
    obtain ⟨hidle, -⟩ | ⟨ph, -, ⟨e, rfl | rfl, h⟩ | ⟨a, b, h⟩ | ⟨ph', r, h⟩⟩ :=
      factUnitStep_cases Config.machine s
    · simp [hidle] at hop
    · left; rw [h, ← statusFailed_invalid]; rfl
    · right; rw [h, ← statusFailed_failed]; rfl
    · rw [h] at hfail; exact absurd statusSuccess_eq hfail
    · rw [h] at hend; cases hend

/-! How long an outcome stays. -/

/-- The unit that a command belongs to (spec/10_state.md R20). -/
def unitOf (i : Instr) : UnitId :=
  match i with
  | .encryptIge => .ige
  | .decryptIge => .ige
  | .factorizePqPair => .fact

/-- The change of a unit's status word that ends an outcome (R180): a reset, or the acceptance of a command of that
unit. -/
def OutcomeEnded (u : UnitId) (a : HostAction) (w : BitVec 8) : Prop :=
  (a = .reset ∧ w = 0x00) ∨ ∃ i, unitOf i = u ∧ a = .wrCmd (encode i) ∧ w = 0x01

section
variable {cfg : Config} {s t : State} {u : UnitId}

/-- Acceptance writes the status word of the command's unit and leaves the other. -/
theorem exec_statusOf {i : Instr} (h : exec i s = .next t) :
    (unitOf i = u ∧ statusOf u t = 0x01) ∨ statusOf u t = statusOf u s := by
  obtain ⟨c, hi, -, rfl⟩ | ⟨rfl, -, rfl⟩ := exec_next h
  · have hu : unitOf i = .ige := by obtain ⟨rfl, -⟩ | ⟨rfl, -⟩ := hi <;> rfl
    rw [startIge_frame]
    cases u with
    | ige => exact Or.inl ⟨hu, statusAccepted_eq⟩
    | fact => exact Or.inr rfl
  · rw [startFact_frame]
    cases u with
    | ige => exact Or.inr rfl
    | fact => exact Or.inl ⟨rfl, statusAccepted_eq⟩

theorem statusOf_congr (hige : t.igeStatus = s.igeStatus) (hfact : t.factStatus = s.factStatus) :
    statusOf u t = statusOf u s := by
  cases u with
  | ige => exact hige
  | fact => exact hfact

theorem hostAction_statusOf {a : HostAction} (h : hostAction cfg a s = .next t) :
    OutcomeEnded u a (statusOf u t) ∨ statusOf u t = statusOf u s := by
  obtain ⟨_, -, -, rfl⟩ | ⟨_, -, -, rfl⟩ | ⟨_, -, -, rfl⟩ | ⟨_, -, -, rfl⟩ | ⟨_, _, -, -, -, rfl⟩ |
    ⟨w, i, ha, hdecode, hexec⟩ | ⟨ha, rfl⟩ | ⟨-, -, hsame, -⟩ := hostAction_cases h
  · exact Or.inr (statusOf_congr rfl rfl)
  · exact Or.inr (statusOf_congr rfl rfl)
  · exact Or.inr (statusOf_congr rfl rfl)
  · exact Or.inr (statusOf_congr rfl rfl)
  · exact Or.inr (statusOf_congr rfl rfl)
  · rw [eq_encode_of_decode hdecode] at ha
    exact (exec_statusOf hexec).imp_left fun ⟨hu, hw⟩ => Or.inr ⟨i, hu, ha, hw⟩
  · refine Or.inl (Or.inl ⟨ha, ?_⟩)
    cases u <;> rfl
  · rw [hsame]
    exact Or.inr (statusOf_congr rfl rfl)

/-- Neither unit's step changes the status word of a unit whose command has ended: that unit is idle, and the other
does not write it. -/
theorem igeUnitStep_statusOf_done (h : Inv cfg s) (hdone : statusDone (statusOf u s) = true)
    (hstep : igeUnitStep cfg s = .next t) : statusOf u t = statusOf u s := by
  cases u with
  | ige =>
    rw [igeUnitStep_idle (igeOp_of_done h hdone)] at hstep
    rw [Host.Outcome.next.inj hstep]
  | fact => exact (igeUnitStep_status hstep).2

theorem factUnitStep_statusOf_done (h : Inv cfg s) (hdone : statusDone (statusOf u s) = true) :
    statusOf u (factUnitStep cfg s) = statusOf u s := by
  cases u with
  | ige => exact (factUnitStep_status cfg s).1
  | fact => rw [factUnitStep_idle (factOp_of_done h hdone)]

/-- The step that changes the status word of a unit whose command has ended is the host's, and ends the outcome. -/
theorem step_statusOf_done (h : Inv Config.machine s) (hstep : step s = .next t)
    (hdone : statusDone (statusOf u s) = true) (hne : statusOf u t ≠ statusOf u s) :
    (takeTurn s).1 = .host ∧ ∃ a rest, s.script = a :: rest ∧ OutcomeEnded u a (statusOf u t) := by
  obtain ⟨ts, hc⟩ := step_cases_turns hstep
  have hts : statusOf u { s with turns := ts } = statusOf u s := statusOf_congr rfl rfl
  have hinv : Inv Config.machine { s with turns := ts } := inv_withSchedule s.script ts h
  rw [← hts] at hdone hne
  obtain ⟨hhost, ⟨-, rfl⟩ | ⟨a, rest, hscript, hact⟩⟩ | ⟨-, hige⟩ | ⟨-, rfl⟩ := hc
  · exact absurd rfl hne
  · exact ⟨hhost, a, rest, hscript, (hostAction_statusOf hact).resolve_right fun he =>
      hne (he.trans (statusOf_congr rfl rfl))⟩
  · exact absurd (igeUnitStep_statusOf_done hinv hdone hige) hne
  · exact absurd (factUnitStep_statusOf_done hinv hdone) hne

end

/-- Settles O50: `step_statusOf_done` for each unit, with the words of its commands. -/
theorem outcomeStaysUntilNextCommandOrReset : Obligations.OutcomeStaysUntilNextCommandOrReset := by
  intro s t hinv hstep
  constructor
  · intro hdone hne
    obtain ⟨hhost, a, rest, hscript, ⟨rfl, hw⟩ | ⟨i, hu, rfl, hw⟩⟩ :=
      step_statusOf_done (u := .ige) hinv hstep hdone hne
    · exact ⟨hhost, rest, Or.inl ⟨hscript, hw⟩⟩
    · refine ⟨hhost, rest, Or.inr ⟨?_, hw⟩⟩
      cases i with
      | encryptIge => exact Or.inl hscript
      | decryptIge => exact Or.inr hscript
      | factorizePqPair => cases hu
  · intro hdone hne
    obtain ⟨hhost, a, rest, hscript, ⟨rfl, hw⟩ | ⟨i, hu, rfl, hw⟩⟩ :=
      step_statusOf_done (u := .fact) hinv hstep hdone hne
    · exact ⟨hhost, rest, Or.inl ⟨hscript, hw⟩⟩
    · refine ⟨hhost, rest, Or.inr ⟨?_, hw⟩⟩
      cases i with
      | encryptIge => cases hu
      | decryptIge => cases hu
      | factorizePqPair => exact hscript

end Sys2Proof.Machine
end

section
/-! The host's duties (spec/70_reset_and_hazards.md R203 to R208): when a command, a write of an operand and a read of a
result is carried out, and what is answered when it is not. -/

namespace Sys2Proof.Machine

open Sys2Proof.Safety

/-! Commands (R204, R207, R208). -/

section
variable {cfg : Config} {s : State} (c : IgeCommand)

theorem acceptIge_of_busy (hbusy : statusBusy s.igeStatus = true) :
    acceptIge cfg c s = .refused (.unitBusy .ige) := if_pos hbusy

theorem acceptIge_of_long (hidle : statusBusy s.igeStatus = false) (ha : aligned s.len.value = true)
    (hlong : fitsBuffer cfg s.len.value = false) : acceptIge cfg c s = .refused .lenExceedsBuffer := by
  simp [acceptIge, hidle, ha, hlong]

theorem acceptIge_of_missing (hidle : statusBusy s.igeStatus = false) (ha : aligned s.len.value = true)
    (hfits : fitsBuffer cfg s.len.value = true) (hmissing : s.ibuf.hasBytes 0 s.len.value = false) :
    acceptIge cfg c s = .refused (.noValue .ibuf) := by
  simp [acceptIge, hidle, ha, hfits, hmissing]

theorem acceptIge_next_iff : (∃ t, acceptIge cfg c s = .next t) ↔ igeReady cfg s = true :=
  ⟨fun ⟨_, h⟩ => (acceptIge_next h).1, fun h => ⟨_, acceptIge_of_ready c h⟩⟩

end

theorem acceptFact_of_busy {s : State} (cfg : Config) (hbusy : statusBusy s.factStatus = true) :
    acceptFact cfg s = .refused (.unitBusy .fact) := if_pos hbusy

/-- Settles O31: each command is the acceptance by its unit. -/
theorem commandToBusyUnitIsRefused : Obligations.CommandToBusyUnitIsRefused :=
  fun _ => ⟨fun hbusy => ⟨acceptIge_of_busy .encrypt hbusy, acceptIge_of_busy .decrypt hbusy⟩,
    acceptFact_of_busy Config.machine⟩

/-- Settles O32: the two refusals, and acceptance of a unit that is ready, which a `LEN` of 0 makes it. -/
theorem idleUnitRefusesOnlyMissingOperands : Obligations.IdleUnitRefusesOnlyMissingOperands := by
  refine ⟨fun cfg c s hidle => ?_, fun s => ⟨exec_igeInstr .encrypt s, exec_igeInstr .decrypt s⟩⟩
  have accepted (hbytes : aligned s.len.value = true →
      fitsBuffer cfg s.len.value = true ∧ s.ibuf.hasBytes 0 s.len.value = true) : ∃ t, acceptIge cfg c s = .next t :=
    (acceptIge_next_iff c).2 ((igeReady_iff cfg s).2 ⟨hidle, hbytes⟩)
  rw [← aligned_iff]
  refine ⟨acceptIge_of_long c hidle, acceptIge_of_missing c hidle, accepted, fun hlen => accepted fun _ => ?_⟩
  rw [hlen]
  exact ⟨fitsBuffer_zero cfg, rfl⟩

/-! Writes of operands (R203). -/

theorem writeOperand_of_busy {u : UnitId} {s : State} (pl : Place) (written : State)
    (hbusy : statusBusy (statusOf u s) = true) : writeOperand u pl s written = .refused (.operandOfBusyUnit pl) :=
  if_pos hbusy

theorem writeIbuf_of_busy {cfg : Config} {a : Nat} {bs : List Byte} {s : State} (hbs : bs ≠ [])
    (haddr : addressesExist cfg a bs.length = true) (hbusy : statusBusy s.igeStatus = true) :
    writeIbuf cfg a bs s = .refused (.operandOfBusyUnit .ibuf) := by
  rw [writeIbuf, if_neg (by simpa using hbs), if_pos haddr, writeOperand_of_busy (u := .ige) _ _ hbusy]

section
variable {cfg : Config} {n : Nat} {s : State}

theorem writeLen_fits (hidle : statusBusy s.igeStatus = false) (hn : n < 2 ^ cfg.lenW) :
    writeLen cfg n s = .next { s with len := ⟨n, true⟩ } := by
  rw [writeLen, writeOperand_of_idle (u := .ige) hidle, lenWritten_fits s.draws hn]
  rfl

theorem writeLen_wide (hidle : statusBusy s.igeStatus = false) (hn : 2 ^ cfg.lenW ≤ n) :
    writeLen cfg n s =
      .next { s with len := ⟨cfg.freeLen s.draws % 2 ^ cfg.lenW, true⟩, draws := s.draws + 1 } := by
  rw [writeLen, writeOperand_of_idle (u := .ige) hidle, lenWritten_wide s.draws (not_lt.2 hn)]
  rfl

theorem writePq_fits (hidle : statusBusy s.factStatus = false) (hn : n < 2 ^ 64) :
    writePq cfg n s = .next { s with pq := ⟨BitVec.ofNat 64 n, true⟩ } := by
  rw [writePq, writeOperand_of_idle (u := .fact) hidle, pqWritten_fits s.draws hn]
  rfl

theorem writePq_wide (hidle : statusBusy s.factStatus = false) (hn : 2 ^ 64 ≤ n) :
    writePq cfg n s = .next { s with pq := ⟨cfg.freePq s.draws, true⟩, draws := s.draws + 1 } := by
  rw [writePq, writeOperand_of_idle (u := .fact) hidle, pqWritten_wide s.draws (not_lt.2 hn)]
  rfl

end

/-- Settles O34: each write is a `writeOperand` of its unit; the two numbers by their widths. -/
theorem operandsOfABusyUnitAreNotWritten : Obligations.OperandsOfABusyUnitAreNotWritten := by
  intro cfg s k v n x a bs haddr
  refine ⟨fun hbusy => ⟨?_, ?_, ?_, fun hbs => writeIbuf_of_busy hbs haddr hbusy⟩, fun hbusy => ?_,
    fun hidle => ⟨?_, ?_, writeLen_fits hidle, fun hn => ?_⟩,
    fun hidle => ⟨writePq_fits hidle, fun hn => ⟨_, writePq_wide hidle hn⟩⟩⟩
  · exact writeOperand_of_busy (u := .ige) _ _ hbusy
  · exact writeOperand_of_busy (u := .ige) _ _ hbusy
  · exact writeOperand_of_busy (u := .ige) _ _ hbusy
  · exact writeOperand_of_busy (u := .fact) _ _ hbusy
  · exact writeOperand_of_idle (u := .ige) hidle
  · exact writeOperand_of_idle (u := .ige) hidle
  · exact ⟨_, Nat.mod_lt _ (Nat.two_pow_pos _), writeLen_wide hidle hn⟩

/-! Reads of results (R205). -/

section
variable {cfg : Config} {a n : Nat} {s : State} (haddr : addressesExist cfg a n = true)
include haddr

theorem readObuf_of_unseen (hseen : s.igeSeen = false) (hn : n ≠ 0) :
    readObuf cfg a n s = .refused (.notAResult .obuf) := by
  simp [readObuf, haddr, hseen, hn]

theorem readObuf_of_seen (hseen : s.igeSeen = true ∨ n = 0) :
    readObuf cfg a n s = returnBytes .obuf (s.obuf.readBytes a n) s := by
  rw [readObuf, if_neg (by simp [haddr]), if_neg (by obtain h | h := hseen <;> simp [h])]

end

section
variable {cfg : Config} {s : State}

theorem readP_of_unseen (hseen : s.factSeen = false) : readRegister .p s = .refused (.notAResult .p) :=
  if_neg (by simp [hseen])

theorem readQ_of_unseen (hseen : s.factSeen = false) : readRegister .q s = .refused (.notAResult .q) :=
  if_neg (by simp [hseen])

theorem readP_of_seen (hseen : s.factSeen = true) :
    readRegister .p s = .next { s with readData := some (.integer s.p.value) } := if_pos hseen

theorem readQ_of_seen (hseen : s.factSeen = true) :
    readRegister .q s = .next { s with readData := some (.integer s.q.value) } := if_pos hseen

end

theorem waitRead_eq (u : UnitId) (again : List HostAction) (s : State) :
    waitRead u again s =
      { readStatus u s with script := if statusDone (statusOf u s) then s.script else again } := by
  cases hdone : statusDone (statusOf u s) with
  | false => rw [waitRead_of_not_done hdone]; rfl
  | true => rw [waitRead_of_done hdone, if_pos rfl, ← readStatus_script u s]

theorem statusIsSuccess_iff_of_legal {w : BitVec 8} (h : igeStatusLegal w = true ∨ factStatusLegal w = true) :
    statusIsSuccess w = true ↔ w = statusSuccess := by
  constructor
  · intro hs
    obtain h | h := h
    · exact statusSuccess_of_igeLegal h hs
    · exact statusSuccess_of_factLegal h hs
  · rintro rfl
    exact statusIsSuccess_success

/-- Settles O36: reads of `OBUF` by whether a success has been seen, then `P` and `Q`, then the status reads. -/
theorem resultsAreReadAfterSuccessOnly : Obligations.ResultsAreReadAfterSuccessOnly := by
  intro cfg s a n haddr
  refine ⟨readObuf_of_unseen haddr, fun hn => ?_, fun hseen hbytes => ?_, fun hseen hmissing => ?_,
    fun hseen => ⟨readP_of_unseen hseen, readQ_of_unseen hseen⟩,
    fun hseen => ⟨readP_of_seen hseen, readQ_of_seen hseen⟩, rfl, rfl,
    congrArg _ (waitRead_eq .ige _ s), congrArg _ (waitRead_eq .fact _ s), fun w hw => ?_⟩
  · subst hn
    exact readObuf_of_seen haddr (Or.inr rfl)
  · obtain ⟨bs, hread, hlen, hval⟩ := Memory.readBytes_of_hasBytes hbytes
    refine ⟨bs, (readObuf_of_seen haddr (Or.inl hseen)).trans ?_, hlen, hval⟩
    rw [hread]
    rfl
  · refine (readObuf_of_seen haddr (Or.inl hseen)).trans ?_
    rw [Memory.readBytes_eq_none hmissing]
    rfl
  · rw [statusIsSuccess_iff_of_legal hw, statusSuccess_eq]

end Sys2Proof.Machine
end

section
/-! A stop is a breach of duty (spec/70_reset_and_hazards.md R203 to R208): each host action is carried out exactly when
`permitted` says so, and under the invariant neither unit stops. -/

namespace Sys2Proof.Machine

open Sys2Proof.Safety

/-! The operations of the host, one by one. -/

section
variable {cfg : Config} {s : State}

theorem acceptFact_next_iff : (∃ t, acceptFact cfg s = .next t) ↔ factReady s = true :=
  ⟨fun ⟨_, h⟩ => (acceptFact_next h).1, fun h => ⟨_, acceptFact_of_ready h⟩⟩

theorem writeOperand_next_iff {u : UnitId} {pl : Place} {written : State} :
    (∃ t, writeOperand u pl s written = .next t) ↔ (!statusBusy (statusOf u s)) = true := by
  rw [Bool.not_eq_true']
  exact ⟨fun ⟨_, h⟩ => (writeOperand_next h).1, fun hidle => ⟨_, writeOperand_of_idle hidle⟩⟩

theorem writeIbuf_next_iff {a : Nat} {bs : List Byte} :
    (∃ t, writeIbuf cfg a bs s = .next t) ↔ permitted cfg (.wrIbuf a bs) s = true := by
  obtain rfl | hbs := eq_or_ne bs []
  · exact ⟨fun _ => rfl, fun _ => ⟨s, rfl⟩⟩
  · cases haddr : addressesExist cfg a bs.length with
    | false => simp [writeIbuf_of_no_address haddr, permitted, haddr, hbs]
    | true =>
      cases hbusy : statusBusy s.igeStatus with
      | false => simp [writeIbuf_of_idle haddr hbusy, permitted, haddr, hbusy]
      | true => simp [writeIbuf_of_busy hbs haddr hbusy, permitted, hbusy, hbs]

theorem writeReadOnly_next_iff {r : ReadOnly} :
    (∃ t, writeReadOnly cfg r s = .next t) ↔ permitted cfg (.wrReadOnly r) s = true := by
  cases r with
  | obuf a => cases haddr : addressesExist cfg a 1 <;> simp [writeReadOnly, permitted, haddr]
  | p => exact ⟨fun _ => rfl, fun _ => ⟨s, rfl⟩⟩
  | q => exact ⟨fun _ => rfl, fun _ => ⟨s, rfl⟩⟩
  | igeStatus => exact ⟨fun _ => rfl, fun _ => ⟨s, rfl⟩⟩
  | factStatus => exact ⟨fun _ => rfl, fun _ => ⟨s, rfl⟩⟩

theorem readRegister_next_iff {r : RegName} :
    (∃ t, readRegister r s = .next t) ↔ permitted cfg (.rd r) s = true := by
  cases r with
  | key => exact ⟨fun _ => rfl, fun _ => ⟨_, rfl⟩⟩
  | iv => exact ⟨fun _ => rfl, fun _ => ⟨_, rfl⟩⟩
  | len => exact ⟨fun _ => rfl, fun _ => ⟨_, rfl⟩⟩
  | pq => exact ⟨fun _ => rfl, fun _ => ⟨_, rfl⟩⟩
  | igeStatus => exact ⟨fun _ => rfl, fun _ => ⟨_, rfl⟩⟩
  | factStatus => exact ⟨fun _ => rfl, fun _ => ⟨_, rfl⟩⟩
  | p =>
    cases hseen : s.factSeen with
    | false => simp [readP_of_unseen hseen, permitted, hseen]
    | true => simp [readP_of_seen hseen, permitted, hseen]
  | q =>
    cases hseen : s.factSeen with
    | false => simp [readQ_of_unseen hseen, permitted, hseen]
    | true => simp [readQ_of_seen hseen, permitted, hseen]
  | cmd => simp [readRegister, permitted]

theorem returnBytes_next_iff {pl : Place} {m : Memory} {a n : Nat} :
    (∃ t, returnBytes pl (m.readBytes a n) s = .next t) ↔ m.hasBytes a n = true := by
  cases hbytes : m.hasBytes a n with
  | false => simp [Memory.readBytes_eq_none hbytes, returnBytes]
  | true =>
    obtain ⟨bs, hread, -⟩ := Memory.readBytes_of_hasBytes hbytes
    simp [hread, returnBytes, returnDatum]

theorem readObuf_next_iff {a n : Nat} :
    (∃ t, readObuf cfg a n s = .next t) ↔ permitted cfg (.rdObuf a n) s = true := by
  cases haddr : addressesExist cfg a n with
  | false => simp [readObuf, permitted, haddr]
  | true =>
    by_cases hseen : s.igeSeen = true ∨ n = 0
    · rw [readObuf_of_seen haddr hseen, returnBytes_next_iff]
      simp [permitted, haddr, hseen]
    · obtain ⟨hunseen, hn⟩ := not_or.1 hseen
      rw [Bool.not_eq_true] at hunseen
      simp [readObuf_of_unseen haddr hunseen hn, permitted, hunseen, hn]

theorem readIbuf_next_iff {a n : Nat} :
    (∃ t, readIbuf cfg a n s = .next t) ↔ permitted cfg (.rdIbuf a n) s = true := by
  cases haddr : addressesExist cfg a n with
  | false => simp [readIbuf, permitted, haddr]
  | true =>
    rw [readIbuf_of_addressesExist haddr, returnBytes_next_iff]
    simp [permitted, haddr]

theorem writeCommand_next_iff {w : CommandWord} :
    (∃ t, writeCommand w s = .next t) ↔ permitted Config.machine (.wrCmd w) s = true := by
  cases hdecode : decode w with
  | error e => simp [writeCommand_of_error hdecode, permitted, hdecode]
  | ok i =>
    simp only [writeCommand_of_ok hdecode, permitted, hdecode]
    cases i with
    | encryptIge => exact acceptIge_next_iff .encrypt
    | decryptIge => exact acceptIge_next_iff .decrypt
    | factorizePqPair => exact acceptFact_next_iff

end

/-- The host's action is carried out exactly when it breaks no duty and names what exists. -/
theorem hostAction_next_iff (a : HostAction) (s : State) :
    (∃ t, hostAction Config.machine a s = .next t) ↔ permitted Config.machine a s = true := by
  cases a with
  | wrKey v => exact writeOperand_next_iff (u := .ige)
  | wrIv v => exact writeOperand_next_iff (u := .ige)
  | wrLen n => exact writeOperand_next_iff (u := .ige)
  | wrPq n => exact writeOperand_next_iff (u := .fact)
  | wrIbuf addr bytes => exact writeIbuf_next_iff
  | wrCmd w => exact writeCommand_next_iff
  | wrReadOnly r => exact writeReadOnly_next_iff
  | rd r => exact readRegister_next_iff
  | rdObuf addr n => exact readObuf_next_iff
  | rdIbuf addr n => exact readIbuf_next_iff
  | wait u => exact ⟨fun _ => rfl, fun _ => ⟨_, rfl⟩⟩
  | reset => exact ⟨fun _ => rfl, fun _ => ⟨_, rfl⟩⟩

/-! The step of the machine. -/

/-- The duties speak of neither the script nor the turns. -/
theorem permitted_after_turn (cfg : Config) (a : HostAction) (rest : List HostAction) (s : State) :
    permitted cfg a { (takeTurn s).2 with script := rest } = permitted cfg a s := by
  rw [takeTurn_frame]
  rfl

theorem step_of_no_action {s : State} (hturn : (takeTurn s).1 = .host) (hscript : s.script = []) :
    step s = .next (takeTurn s).2 := by
  have hs : (takeTurn s).2.script = [] := by rw [takeTurn_frame]; exact hscript
  simp [step, hturn, agentStep, hostStep, hs]

/-- On the host's turn the step stops exactly at an action that is not permitted. -/
theorem step_next_iff_of_host {s : State} (hturn : (takeTurn s).1 = .host) :
    (∃ t, step s = .next t) ↔ ∀ a rest, s.script = a :: rest → permitted Config.machine a s = true := by
  cases hscript : s.script with
  | nil => simp [step_of_no_action hturn hscript]
  | cons a rest =>
    rw [step_of_host hturn hscript, hostAction_next_iff, permitted_after_turn]
    simp

/-- On a unit's turn the step does not stop: the invariant holds the input bytes of a busy IGE unit. -/
theorem step_next_of_unit {s : State} (h : Inv Config.machine s) (hturn : (takeTurn s).1 ≠ .host) :
    ∃ t, step s = .next t := by
  have hinv : Inv Config.machine (takeTurn s).2 := by
    rw [takeTurn_frame]
    exact inv_withSchedule s.script _ h
  unfold step
  cases hagent : (takeTurn s).1 with
  | host => exact absurd hagent hturn
  | igeUnit => exact igeUnitStep_next_of_inv hinv
  | factUnit => exact ⟨_, rfl⟩

/-- Settles O44: the host's turn by what is permitted, a unit's turn by the invariant. -/
theorem onlyABreachOfDutyStopsTheMachine : Obligations.OnlyABreachOfDutyStopsTheMachine := by
  intro s hinv
  by_cases hturn : (takeTurn s).1 = .host
  · rw [step_next_iff_of_host hturn]
    exact ⟨fun h a rest _ => h a rest, fun h a rest => h a rest hturn⟩
  · exact ⟨fun _ a rest hhost => absurd hhost hturn, fun _ => step_next_of_unit hinv hturn⟩

end Sys2Proof.Machine
end

section
/-! The reset values of the operand registers (spec/10_state.md R24, R35, spec/70_reset_and_hazards.md R202, R207): a
command reads only what it is listed to read, so that when this has been written no other register's value shows. -/

namespace Sys2Proof.Machine

open Sys2Proof.Safety

section
variable {s : State} (k : Key) (v : Iv) (n : Nat) (x : U64)

theorem withOtherResetValues_key (h : s.key.written = true) : (withOtherResetValues k v n x s).key = s.key := if_pos h

theorem withOtherResetValues_iv (h : s.iv.written = true) : (withOtherResetValues k v n x s).iv = s.iv := if_pos h

theorem withOtherResetValues_len (h : s.len.written = true) : (withOtherResetValues k v n x s).len = s.len := if_pos h

theorem withOtherResetValues_pq (h : s.pq.written = true) : (withOtherResetValues k v n x s).pq = s.pq := if_pos h

@[simp] theorem withOtherResetValues_prevCipher : (withOtherResetValues k v n x s).prevCipher = s.prevCipher := rfl

@[simp] theorem withOtherResetValues_prevPlain : (withOtherResetValues k v n x s).prevPlain = s.prevPlain := rfl

@[simp] theorem emitBlock_withOtherResetValues (out nc np : Block) :
    emitBlock out nc np (withOtherResetValues k v n x s) = withOtherResetValues k v n x (emitBlock out nc np s) := rfl

/-! The IGE unit. -/

theorem operandsWritten_igeInstr (c : IgeCommand) :
    operandsWritten (igeInstr c) s = true ↔
      s.len.written = true ∧ (aligned s.len.value = true → s.key.written = true ∧ s.iv.written = true) := by
  have hboth : operandsWritten (igeInstr c) s =
      (s.len.written && (!aligned s.len.value || (s.key.written && s.iv.written))) := by cases c <;> rfl
  rw [hboth]
  cases aligned s.len.value <;> simp

theorem igeReady_withOtherResetValues (cfg : Config) (hlen : s.len.written = true) :
    igeReady cfg (withOtherResetValues k v n x s) = igeReady cfg s := by
  rw [igeReady, withOtherResetValues_len k v n x hlen]
  rfl

/-- Acceptance reads `LEN`, and `IV` when `LEN` is aligned. -/
theorem startIge_withOtherResetValues (c : IgeCommand) (hlen : s.len.written = true)
    (hiv : aligned s.len.value = true → s.iv.written = true) :
    startIge c (withOtherResetValues k v n x s) = withOtherResetValues k v n x (startIge c s) := by
  have hlen' := congrArg Reg.value (withOtherResetValues_len k v n x hlen)
  cases ha : aligned s.len.value with
  | false => rw [startIge_misaligned ha, startIge_misaligned (by rw [hlen', ha])]; rfl
  | true =>
    have hiv' := congrArg Reg.value (withOtherResetValues_iv k v n x (hiv ha))
    rw [startIge_aligned ha, startIge_aligned (by rw [hlen', ha]), hiv']
    rfl

/-- A block step reads `KEY` and no other operand register. -/
theorem blockStep_withOtherResetValues (cfg : Config) (c : IgeCommand) (input : Block) (hkey : s.key.written = true) :
    blockStep cfg c input (withOtherResetValues k v n x s) =
      withOtherResetValues k v n x (blockStep cfg c input s) := by
  have hkey' := congrArg Reg.value (withOtherResetValues_key k v n x hkey)
  cases c with
  | encrypt => simp [blockStep, encryptStep, hkey']
  | decrypt => simp [blockStep, decryptStep, hkey']

theorem acceptIge_withOtherResetValues {cfg : Config} {c : IgeCommand} {t : State}
    (hw : operandsWritten (igeInstr c) s = true) (h : acceptIge cfg c s = .next t) :
    acceptIge cfg c (withOtherResetValues k v n x s) = .next (withOtherResetValues k v n x t) := by
  obtain ⟨hlen, hregs⟩ := (operandsWritten_igeInstr c).1 hw
  obtain ⟨hready, rfl⟩ := acceptIge_next h
  rw [← igeReady_withOtherResetValues k v n x cfg hlen] at hready
  rw [acceptIge_of_ready c hready, startIge_withOtherResetValues k v n x c hlen fun ha => (hregs ha).2]

theorem igeUnitStep_withOtherResetValues {cfg : Config} {t : State} (hw : operandsWritten .encryptIge s = true)
    (h : igeUnitStep cfg s = .next t) :
    igeUnitStep cfg (withOtherResetValues k v n x s) = .next (withOtherResetValues k v n x t) := by
  obtain ⟨hlen, hregs⟩ := (operandsWritten_igeInstr .encrypt).1 hw
  have hlen' := congrArg Reg.value (withOtherResetValues_len k v n x hlen)
  obtain ⟨h0, rfl⟩ | ⟨c, h0, ⟨ha, rfl⟩ | ⟨ha, hb, input, hi, rfl⟩ | ⟨ha, hb, rfl⟩⟩ := igeUnitStep_cases h
  · exact igeUnitStep_idle (s := withOtherResetValues k v n x _) h0
  · exact igeUnitStep_raise (s := withOtherResetValues k v n x s) h0 (by rw [hlen', ha])
  · rw [← blockStep_withOtherResetValues k v n x cfg c input (hregs ha).1]
    exact igeUnitStep_block (s := withOtherResetValues k v n x s) h0 (by rw [hlen', ha]) (by rw [hlen']; exact hb) hi
  · exact igeUnitStep_complete (s := withOtherResetValues k v n x s) h0 (by rw [hlen', ha]) (by rw [hlen']; exact hb)

/-! The FACT unit. -/

theorem startFact_withOtherResetValues (cfg : Config) (hpq : s.pq.written = true) :
    startFact cfg (withOtherResetValues k v n x s) = withOtherResetValues k v n x (startFact cfg s) := by
  have hpq' := congrArg Reg.value (withOtherResetValues_pq k v n x hpq)
  by_cases h : s.pq.value.toNat < 2 ∨ s.pq.value.toNat % 2 = 0
  · rw [startFact_direct h, startFact_direct (by rw [hpq']; exact h)]
    rfl
  · rw [startFact_search h, startFact_search (by rw [hpq']; exact h), hpq']
    rfl

theorem acceptFact_withOtherResetValues {cfg : Config} {t : State} (hpq : s.pq.written = true)
    (h : acceptFact cfg s = .next t) :
    acceptFact cfg (withOtherResetValues k v n x s) = .next (withOtherResetValues k v n x t) := by
  obtain ⟨hready, rfl⟩ := acceptFact_next h
  rw [← startFact_withOtherResetValues k v n x cfg hpq]
  exact acceptFact_of_ready (s := withOtherResetValues k v n x s) hready

theorem directStep_withOtherResetValues (hpq : s.pq.written = true) :
    directStep (withOtherResetValues k v n x s) = withOtherResetValues k v n x (directStep s) := by
  have hpq' := congrArg Reg.value (withOtherResetValues_pq k v n x hpq)
  by_cases h : s.pq.value.toNat < 2
  · rw [directStep_below h, directStep_below (by rw [hpq']; exact h)]
    rfl
  · rw [directStep_even h, directStep_even (by rw [hpq']; exact h), hpq']
    rfl

/-- Only the step without a search reads `PQ`; the others read the working registers. -/
theorem factUnitStep_withOtherResetValues (cfg : Config) (hpq : s.pq.written = true) :
    factUnitStep cfg (withOtherResetValues k v n x s) = withOtherResetValues k v n x (factUnitStep cfg s) := by
  have hop : (withOtherResetValues k v n x s).factOp = s.factOp := rfl
  cases h : s.factOp with
  | none => rw [factUnitStep_idle h, factUnitStep_idle (hop.trans h)]
  | some ph =>
    cases ph with
    | direct =>
      rw [factUnitStep_direct h, factUnitStep_direct (hop.trans h), directStep_withOtherResetValues k v n x hpq]
    | batch => rw [factUnitStep_batch h, factUnitStep_batch (hop.trans h)]; rfl
    | replay => rw [factUnitStep_replay h, factUnitStep_replay (hop.trans h)]; rfl
    | found => rw [factUnitStep_found h, factUnitStep_found (hop.trans h)]; rfl
    | exhausted => rw [factUnitStep_exhausted h, factUnitStep_exhausted (hop.trans h)]; rfl

/-! Both units. -/

theorem exec_withOtherResetValues {i : Instr} {t : State} (hw : operandsWritten i s = true) (h : exec i s = .next t) :
    exec i (withOtherResetValues k v n x s) = .next (withOtherResetValues k v n x t) := by
  cases i with
  | encryptIge => exact acceptIge_withOtherResetValues (c := .encrypt) k v n x hw h
  | decryptIge => exact acceptIge_withOtherResetValues (c := .decrypt) k v n x hw h
  | factorizePqPair => exact acceptFact_withOtherResetValues k v n x hw h

end

/-- Settles O53: acceptance, then the steps of each unit. -/
theorem writtenCommandsIgnoreOperandResetValues : Obligations.WrittenCommandsIgnoreOperandResetValues :=
  fun k v n x _ => ⟨fun _ _ => exec_withOtherResetValues k v n x,
    fun _ _ => igeUnitStep_withOtherResetValues k v n x,
    fun cfg => factUnitStep_withOtherResetValues k v n x cfg⟩

end Sys2Proof.Machine
end
